-- ==== Sys2Proof/Word.lean ====
section
/-! DEFINITION. The two word types of the block: the byte of a frame and the 16-bit register
(`00_scope.md` R8, `10_state.md` R12). Byte order and field helpers stand in `Machine/Operands.lean`. -/

namespace Sys2Proof

/-- One byte of a frame, of RAW and of TXF (R8, R36). -/
abbrev Byte := BitVec 8

/-- One holding register, and every 16-bit field of a frame (R8, R12, R36). -/
abbrev Word := BitVec 16

end Sys2Proof
end

