-- ==== Sys2Proof/Syntax.lean ====
section
/-! DEFINITION. The frames of the block as syntax: one constructor of `Instr` per row of
`spec/opcode_table.json` (`30_encoding.md` R47 to R56), with the operands each frame carries. The four
request rows are what the engine receives and executes; the four response rows are what it builds. -/

namespace Sys2Proof

/-- ExceptionCode, the closed set of four names (R9, R62). `serverFailure` is kept in the enumeration only:
no rule raises it (R129). -/
inductive ExcCode where
  | illegalFunction
  | illegalDataAddress
  | illegalDataValue
  | serverFailure
  deriving DecidableEq, Repr

/-- Why a candidate frame got no reply (R26, R130, R131): the reasons of `drop(reason)` and the overflow. -/
inductive DropReason where
  | overflow
  | short
  | crc
  | foreign
  deriving DecidableEq, Repr

/-- Why bytes are not one of the four response frames (R50 to R53, read from the master's side). -/
inductive ResponseReject where
  /-- Fewer than 4 bytes: no room for address, function and CRC. -/
  | short
  /-- The two CRC bytes are not those of the bytes before them. -/
  | crc
  /-- A function byte below 0x80 that is none of 0x03, 0x06, 0x10. -/
  | unknownFunction
  /-- The payload is not as long as the response's layout. -/
  | badLength
  /-- A read response whose byte count is not twice a register count of 1 to 125, or not the number of data bytes. -/
  | badByteCount
  /-- An exception response whose third byte is none of the four exception codes. -/
  | badCode
  deriving DecidableEq, Repr

/-- A frame, by row of the opcode table. In a request, `surplus`, `rest` and `payload` are the bytes between
the last fixed field and the CRC: the whole content of the frame is kept, so nothing of an encoding is lost. -/
inductive Instr where
  /-- RHR, read holding registers, function 0x03 (R47): `surplus` is what stands after the count (R98 b). -/
  | rhr (slave : Byte) (start count : Word) (surplus : List Byte)
  /-- WSR, write single register, function 0x06 (R48): `surplus` is what stands after the value (R98 b). -/
  | wsr (slave : Byte) (addr value : Word) (surplus : List Byte)
  /-- WMR, write multiple registers, function 0x10 (R49): `rest` is the frame from offset 6 up to the CRC, that
  is the `byte_count` byte, the data words and any surplus; it is the view of RawFrame that the ParsedRequest
  keeps and the dispatcher decodes after validation (R21, R90, `90_conflicts.md` C4). It may be empty. -/
  | wmr (slave : Byte) (start count : Word) (rest : List Byte)
  /-- ILLFN, any function byte outside 0x03, 0x06, 0x10 (R56): the payload is not decoded. -/
  | illfn (slave fn : Byte) (payload : List Byte)
  /-- RHR.RSP, the read response (R50, R108): its register count is the length of `values`. -/
  | rhrRsp (slave : Byte) (values : List Word)
  /-- WSR.RSP, the write-single response (R51, R109). -/
  | wsrRsp (slave : Byte) (addr value : Word)
  /-- WMR.RSP, the write-multiple response (R52, R110). -/
  | wmrRsp (slave : Byte) (start count : Word)
  /-- EXC.RSP, the exception response (R53, R111): `fn` is the received function byte, sent with bit 7 set. -/
  | excRsp (slave fn : Byte) (code : ExcCode)
  deriving DecidableEq, Repr

/-- The rows of direction "request" of the opcode table: what the engine can receive. -/
def Instr.isRequest : Instr → Bool
  | .rhr _ _ _ _ => true
  | .wsr _ _ _ _ => true
  | .wmr _ _ _ _ => true
  | .illfn _ _ _ => true
  | .rhrRsp _ _ => false
  | .wsrRsp _ _ _ => false
  | .wmrRsp _ _ _ => false
  | .excRsp _ _ _ => false

/-- The slave address byte of a frame, its byte 0 (R45). -/
def Instr.slave : Instr → Byte
  | .rhr sl _ _ _ => sl
  | .wsr sl _ _ _ => sl
  | .wmr sl _ _ _ => sl
  | .illfn sl _ _ => sl
  | .rhrRsp sl _ => sl
  | .wsrRsp sl _ _ => sl
  | .wmrRsp sl _ _ => sl
  | .excRsp sl _ _ => sl

end Sys2Proof
end

