-- ==== Sys2Proof/Machine/Operands.lean ====
section
/-! DEFINITION. Operand forms: the fixed parameters of the protocol (`00_scope.md` R7), the byte order of
16-bit fields (`20_memory.md` R32), how operands are assembled from the bytes of a frame (`30_encoding.md`
R54), and the numbers of the function and exception codes (`30_encoding.md` R55, R62). -/

namespace Sys2Proof.Machine

/-- `MAXFRAME`, the capacity of RawFrame and TxFrame (R7, `90_conflicts.md` C1). -/
abbrev maxFrame : Nat := 256

/-- `MAXREAD`, the largest register count of a read (R7, R94). -/
abbrev maxRead : Nat := 125

/-- `MAXWRITE`, the largest register count of a write-multiple (R7, R95). -/
abbrev maxWrite : Nat := 123

/-- `hi(v) = v[15:8]` (R8). -/
def hi (v : Word) : Byte := v.extractLsb' 8 8

/-- `lo(v) = v[7:0]` (R8). -/
def lo (v : Word) : Byte := v.extractLsb' 0 8

/-- `be16(h, l)`, the 16-bit value with high byte `h` (R8, R161 a). -/
def be16 (h l : Byte) : Word := h ++ l

/-- Function code 0x03, read holding registers (R55). -/
abbrev fnRead : Byte := 0x03#8

/-- Function code 0x06, write single register (R55). -/
abbrev fnWrite1 : Byte := 0x06#8

/-- Function code 0x10, write multiple registers (R55). -/
abbrev fnWriteN : Byte := 0x10#8

/-- "FunctionCode: enumerated, closed set" of the three supported codes (R55). -/
def supported (fn : Byte) : Bool := fn == fnRead || fn == fnWrite1 || fn == fnWriteN

/-- The words a sequence of bytes holds, two bytes a word, high byte first (R32, R54); a last odd byte is no word. -/
def wordsOf : List Byte → List Word
  | h :: l :: t => be16 h l :: wordsOf t
  | _ => []

/-- Words as bytes in wire order, each `hi(v)` then `lo(v)` (R32). -/
def bytesOf : List Word → List Byte
  | [] => []
  | v :: t => hi v :: lo v :: bytesOf t

/-- The data words `d(0) … d(count-1)` of a WMR request, `d(i) = be16(buf[7+2*i], buf[8+2*i])` (R54, R103):
`rest` begins at offset 6, with the `byte_count` byte that is never read (R84, R98 a). -/
def dataWords (count : Nat) (rest : List Byte) : List Word := wordsOf ((rest.drop 1).take (2 * count))

/-- The length `len` of a request frame with four fixed payload bytes and `extra` bytes after them:
slave, function, the four bytes, `extra`, and the CRC (R45, R47 to R49). -/
def requestLen (extra : List Byte) : Nat := 8 + extra.length

/-- The byte an exception code is sent as (R62). -/
def excByte : ExcCode → Byte
  | .illegalFunction => 0x01#8
  | .illegalDataAddress => 0x02#8
  | .illegalDataValue => 0x03#8
  | .serverFailure => 0x04#8

/-- The exception code a byte stands for (R62), if it stands for one. -/
def excOfByte (b : Byte) : Option ExcCode :=
  if b = 0x01#8 then some .illegalFunction
  else if b = 0x02#8 then some .illegalDataAddress
  else if b = 0x03#8 then some .illegalDataValue
  else if b = 0x04#8 then some .serverFailure
  else none

end Sys2Proof.Machine
end

