-- ==== Sys2Proof/Machine/Crc.lean ====
section
/-! DEFINITION. The CRC Engine (`40_crc.md` R63 to R71): CRC.INIT, CRC.SHIFT, CRC.BYTE, CRC16, CRC.WIRE,
CRC.CHECK, the stamp of a frame (`44_frame_build_send.md` R112), and the table-driven realisation R71 allows.
A pure function; the accumulator is no state between evaluations (R23). -/

namespace Sys2Proof.Machine

/-- CRC.INIT (R64): the accumulator is 0xFFFF. -/
def crcInit : Word := 0xFFFF#16

/-- CRC.SHIFT (R65): a logical right shift by one, then the exclusive-or with 0xA001 if the bit shifted out was 1. -/
def crcShift (acc : Word) : Word :=
  if acc.getLsbD 0 then (acc >>> 1) ^^^ 0xA001#16 else acc >>> 1

/-- CRC.SHIFT repeated `k` times (R66). -/
def crcShifts : Nat → Word → Word
  | 0, acc => acc
  | k + 1, acc => crcShifts k (crcShift acc)

/-- CRC.BYTE (R66): exclusive-or of the byte into the low byte of the accumulator, then 8 shifts. -/
def crcByte (acc : Word) (b : Byte) : Word := crcShifts 8 (acc ^^^ b.setWidth 16)

/-- CRC16 (R67): CRC.INIT, then CRC.BYTE for every byte in ascending order; the raw accumulator is returned. -/
def crc16 (m : List Byte) : Word := m.foldl crcByte crcInit

/-- CRC.WIRE (R68): the two bytes on the wire, low byte first. -/
def crcWire (acc : Word) : List Byte := [lo acc, hi acc]

/-- STAMP (R112): a frame body with the two CRC bytes of the body after it. -/
def stamp (body : List Byte) : List Byte := body ++ crcWire (crc16 body)

/-- CRC.CHECK (R69): the last two bytes are the CRC, low byte first, of all the bytes before them. -/
def crcCheck (f : List Byte) : Bool :=
  f.drop (f.length - 2) == crcWire (crc16 (f.take (f.length - 2)))

/-- An entry of the 256-entry table of R71: CRC.BYTE from a zero accumulator. -/
def crcTableEntry (b : Byte) : Word := crcByte 0#16 b

/-- CRC.BYTE realised by the 256-entry table (R71). -/
def crcByteByTable (acc : Word) (b : Byte) : Word := (acc >>> 8) ^^^ crcTableEntry (lo acc ^^^ b)

end Sys2Proof.Machine
end

