-- ==== Sys2Proof/Machine/Frames.lean ====
section
/-! DEFINITION. Frame bodies, that is the bytes before the CRC: the three request layouts (`30_encoding.md`
R47 to R49) and the bodies the four BUILD rules write (`44_frame_build_send.md` R108 to R111). -/

namespace Sys2Proof.Machine

/-- A request or response body whose payload begins with two 16-bit fields (R47 to R49, R51, R52). -/
def twoFieldBody (slave fn : Byte) (a b : Word) (after : List Byte) : List Byte :=
  slave :: fn :: hi a :: lo a :: hi b :: lo b :: after

/-- The body of RHR.RSP (R50, R108): slave, 0x03, the byte count `2*c`, the values big-endian. -/
def rhrRspBody (slave : Byte) (values : List Word) : List Byte :=
  slave :: fnRead :: BitVec.ofNat 8 (2 * values.length) :: bytesOf values

/-- The body of WSR.RSP (R51, R109): slave, 0x06, the address, the value. -/
def wsrRspBody (slave : Byte) (addr value : Word) : List Byte := twoFieldBody slave fnWrite1 addr value []

/-- The body of WMR.RSP (R52, R110): slave, 0x10, the start address, the count; no register data. -/
def wmrRspBody (slave : Byte) (start count : Word) : List Byte := twoFieldBody slave fnWriteN start count []

/-- The body of EXC.RSP (R53, R111): slave, the function byte with bit 7 set, the exception code. -/
def excRspBody (slave fn : Byte) (code : ExcCode) : List Byte := [slave, fn ||| 0x80#8, excByte code]

end Sys2Proof.Machine
end

