-- ==== Sys2Proof/WellFormed.lean ====
section
/-! DEFINITION. Which terms of `Instr` stand for a frame of the spec: a request fits a RawFrame of 256 bytes
(`30_encoding.md` R46), ILLFN's function byte is none of the three supported codes (R56), a read response
carries 1 to 125 registers (R50), and the function byte of an exception response has bit 7 set (R53). Counts,
addresses and values are not restricted here: an out-of-range count is a well-formed request that the engine
answers with an exception. -/

namespace Sys2Proof

open Machine

/-- The term is one of the frames of the opcode table, in the form the decoder gives it. -/
def Instr.wellFormed : Instr → Bool
  | .rhr _ _ _ surplus => decide (requestLen surplus ≤ maxFrame)
  | .wsr _ _ _ surplus => decide (requestLen surplus ≤ maxFrame)
  | .wmr _ _ _ rest => decide (requestLen rest ≤ maxFrame)
  | .illfn _ fn payload => !supported fn && decide (4 + payload.length ≤ maxFrame)
  | .rhrRsp _ values => decide (1 ≤ values.length) && decide (values.length ≤ maxRead)
  | .wsrRsp _ _ _ => true
  | .wmrRsp _ _ _ => true
  | .excRsp _ fn _ => fn.msb

end Sys2Proof
end

