-- ==== Sys2Proof/Decode.lean ====
section
/-! DEFINITION. From bytes to frames and back. `decodeRequest` is PARSE (`42_parse_validate.md` R83 to R90): the
engine's only decoder, total on any bytes, which rejects by the reason of the drop. `decodeResponse` reads the
four response rows from the master's side (`30_encoding.md` R50 to R53). `encode` writes a frame from the same
layouts, CRC included. The function byte alone does not tell a request from a response (the rows RHR and
RHR.RSP have one and the same match), so the direction chooses the decoder. -/

namespace Sys2Proof

open Machine

/-- Steps 2 and 3 of PARSE on the bytes before the CRC (R86, R88, R89): the address, the function byte, and for a
supported function the four bytes at offsets 2 to 5; what follows them is kept as it stands. -/
def decodeRequestBody (slave : Byte) : List Byte → Except DropReason Instr
  | sl :: fn :: payload =>
    if sl ≠ slave then .error .foreign
    else if supported fn then
      match payload with
      | b2 :: b3 :: b4 :: b5 :: after =>
        if fn = fnRead then .ok (.rhr sl (be16 b2 b3) (be16 b4 b5) after)
        else if fn = fnWrite1 then .ok (.wsr sl (be16 b2 b3) (be16 b4 b5) after)
        else .ok (.wmr sl (be16 b2 b3) (be16 b4 b5) after)
      | _ => .error .short
    else .ok (.illfn sl fn payload)
  | _ => .error .short

/-- PARSE (R83), in the order of R99: at least 4 bytes, the CRC, then the address and the fields. -/
def decodeRequest (slave : Byte) (f : List Byte) : Except DropReason Instr :=
  if f.length < 4 then .error .short
  else if crcCheck f = false then .error .crc
  else decodeRequestBody slave (f.take (f.length - 2))

/-- The four response layouts on the bytes before the CRC (R50 to R53), told apart by the function byte:
bit 7 set is an exception response. -/
def decodeResponseBody : List Byte → Except ResponseReject Instr
  | sl :: fn :: payload =>
    if fn.msb then
      match payload with
      | [c] => match excOfByte c with
        | some code => .ok (.excRsp sl fn code)
        | none => .error .badCode
      | _ => .error .badLength
    else if fn = fnRead then
      match payload with
      | bc :: data =>
        if bc.toNat = data.length ∧ data.length % 2 = 0 ∧ 2 ≤ data.length ∧ data.length ≤ 2 * maxRead
        then .ok (.rhrRsp sl (wordsOf data)) else .error .badByteCount
      | [] => .error .badLength
    else if fn = fnWrite1 then
      match payload with
      | [b2, b3, b4, b5] => .ok (.wsrRsp sl (be16 b2 b3) (be16 b4 b5))
      | _ => .error .badLength
    else if fn = fnWriteN then
      match payload with
      | [b2, b3, b4, b5] => .ok (.wmrRsp sl (be16 b2 b3) (be16 b4 b5))
      | _ => .error .badLength
    else .error .unknownFunction
  | _ => .error .short

/-- A response frame as a master reads it (R50 to R53). -/
def decodeResponse (f : List Byte) : Except ResponseReject Instr :=
  if f.length < 4 then .error .short
  else if crcCheck f = false then .error .crc
  else decodeResponseBody (f.take (f.length - 2))

/-- The bytes of a frame before its CRC (R47 to R53, R56). -/
def encodeBody : Instr → List Byte
  | .rhr sl start count surplus => twoFieldBody sl fnRead start count surplus
  | .wsr sl addr value surplus => twoFieldBody sl fnWrite1 addr value surplus
  | .wmr sl start count rest => twoFieldBody sl fnWriteN start count rest
  | .illfn sl fn payload => sl :: fn :: payload
  | .rhrRsp sl values => rhrRspBody sl values
  | .wsrRsp sl addr value => wsrRspBody sl addr value
  | .wmrRsp sl start count => wmrRspBody sl start count
  | .excRsp sl fn code => excRspBody sl fn code

/-- The frame of an instruction: its body and the CRC of the body, low byte first (R45, R60). -/
def encode (i : Instr) : List Byte := stamp (encodeBody i)

/-- The payload of the WMR form a well-formed master sends (R49, R60): `byte_count` and the data words. -/
def nominalRest (values : List Word) : List Byte := BitVec.ofNat 8 (2 * values.length) :: bytesOf values

/-- Byte `j` of a table word of `nbits` bits: the opcode table counts from the function byte, which is byte 0 of
the word and byte offset 1 of the frame (R55). A byte above the word is 0. -/
def tableByte (nbits w j : Nat) : Byte := BitVec.ofNat 8 ((w % 2 ^ nbits) >>> (8 * j))

/-- How many payload bytes the frame of a table word has: those of the word after its function byte, and at least
the nominal length of the request (R59), 4 bytes, or for a write-multiple `5 + 2*count`; at most 252, so that
the frame is not longer than `MAXFRAME`. -/
def tablePayloadLen (nbits w : Nat) : Nat :=
  let nominal :=
    if tableByte nbits w 0 = fnWriteN then 5 + 2 * (be16 (tableByte nbits w 3) (tableByte nbits w 4)).toNat else 4
  min 252 (max (nbits / 8 - 1) nominal)

/-- The request frame of a table word: the slave address, the word's bytes from the function byte on, zeros up to
the request's nominal length, and the CRC (R45). -/
def tableFrame (slave : Byte) (nbits w : Nat) : List Byte :=
  stamp (slave :: tableByte nbits w 0 ::
    (List.range (tablePayloadLen nbits w)).map (fun j => tableByte nbits w (j + 1)))

/-- The slave address the decoder of a table word is given; the frame of the word carries the same byte. -/
def tableSlave : Byte := 0x01#8

/-- The instruction the engine's decoder reads from a table word. -/
def decodeTableWord (nbits w : Nat) : Option Instr :=
  match decodeRequest tableSlave (tableFrame tableSlave nbits w) with
  | .ok i => some i
  | .error _ => none

end Sys2Proof
end

