-- ==== Sys2Proof/Config.lean ====
section
/-! DEFINITION. The configuration inputs of the block (`00_scope.md` R7, `10_state.md` R15): what an
instance fixes at start-up and no step changes. They are OPEN in the spec ("argument of the model"), so
they are a value every state carries and every statement quantifies over; the block has no free value of
its own (no rule leaves the result of a step open). -/

namespace Sys2Proof

/-- SlaveConfig (`SLAVE`, `N`) and the two configuration inputs the spec adds to it (`SILENCE`, `RS485`)
(R7, R15): "Set once at startup; read-only thereafter". -/
structure Config where
  /-- `SLAVE`, port `cfg_slave`: the configured slave address, any byte (R7, R15). -/
  slave   : Byte
  /-- `N`, port `cfg_n`: the number of holding registers, 0 to 65536 (R7, R15). -/
  n       : Nat
  /-- `SILENCE`, port `cfg_silence`: the inter-frame silence threshold in ticks of `now` (R7, R80). -/
  silence : Nat
  /-- `RS485`, port `cfg_rs485`: whether transmit-enable sequencing is performed (R7, R113). -/
  rs485   : Bool
  deriving DecidableEq, Repr

/-- The legal range of `N` (R7: "0 to 65536"); every value of the other three fields is legal. -/
abbrev Config.Legal (c : Config) : Prop := c.n ≤ 65536

end Sys2Proof
end

