-- ==== Sys2Proof/Machine/State.lean ====
section
/-! DEFINITION. The state of the machine as plain data: everything `10_state.md` gives the block (R10 to R29), the
transport it works against (R22), and the schedule of what the outside does before each poll (R11, R117). One
step is one service poll (`45_service.md` R117). -/

namespace Sys2Proof.Machine

/-- Storage cells by address: addresses strictly rising, no entry equal to what an unlisted address reads as
(all bits zero, `notes/assumptions/5.md`). -/
abbrev Cells (w : Nat) := List (Nat × BitVec w)

/-- A byte-addressed space, RAW or TXF (R30): a list of `Host.Cell`. -/
abbrev Memory := List Host.Cell

/-- The word-addressed space REGS (R12, R30). -/
abbrev Bank := Cells 16

/-- `state`, the assembler state register (R16); the encoding 3 is unreachable and has no constructor
(`93_implementation_defined.md` U13). -/
inductive AsmState where
  | idle
  | accumulating
  | settled
  deriving DecidableEq, Repr

/-- One event of the transmit side, in the order the engine causes it (R22, R113). -/
inductive TxEvent where
  /-- `TxEnable(v)`: the transmit-enable signal is driven to `v`. -/
  | enable (v : Bool)
  /-- `TxPush(b)`: one byte handed to the transmitter. -/
  | byte (b : Byte)
  /-- `TxWaitComplete()` returned: the transport reported transmission complete. -/
  | complete
  deriving DecidableEq, Repr

/-- The Outcome of a service step (R26, R119), with the reason of a no-reply. -/
inductive ServiceOutcome where
  | noActivity
  | frameProcessed (len : Nat)
  | exception (code : ExcCode)
  | noReply (reason : DropReason)
  deriving DecidableEq, Repr

/-- What the outside does between the previous poll and one poll (R11, R117): the clock advances, bytes arrive,
the host uses its move on the bank, and the transport will or will not report the end of a transmission. -/
structure PollInput where
  /-- Ticks by which `now` advances, so that it never decreases (R25). -/
  ticks      : Nat
  /-- Bytes the transport appends to the receive queue, oldest first (R11 b, R22). -/
  arrivals   : List Byte
  /-- The host's writes to the bank, as index and value, in order (R11 d, R40). -/
  hostWrites : List (Nat × Word)
  /-- Whether the transport reports the end of a transmission begun in this poll (R113). -/
  txReports  : Bool
  deriving DecidableEq, Repr

/-- The whole state. The block has no program counter and no flags (R13, R14): the pair `fsm`, `len` stands in
place of the one, the Outcome of the last step in place of the other. -/
structure State where
  /-- `SLAVE`, `N`, `SILENCE`, `RS485`: constant from reset on (R7, R15). -/
  cfg       : Config
  /-- The register bank `regs[0..N)` (R12), owned by the host between steps (R40). -/
  regs      : Bank
  /-- `state` of the frame assembler (R16). -/
  fsm       : AsmState
  /-- `len`, 9 bits, 0 to 256 (R17). -/
  len       : Fin 257
  /-- `t_mark`, the value of `now` when `len` last changed (R18). -/
  tMark     : Nat
  /-- RawFrame `buf[0..256)` (R19), the space RAW. -/
  raw       : Memory
  /-- TxFrame `tx[0..256)` (R20), the space TXF. -/
  txf       : Memory
  /-- `tx_len`, 9 bits (R20). -/
  txLen     : Fin 257
  /-- `tx_en`, the transmit-enable signal (R24, R139). -/
  txEn      : Bool
  /-- `bank_busy`: the engine holds the bank (R24, R27). -/
  bankBusy  : Bool
  /-- The Outcome the last step reported (R26); ports `out_valid`, `out_kind`, `out_value` are computed from it. -/
  outcome   : ServiceOutcome
  /-- `now`, the monotonic time input (R25). -/
  now       : Nat
  /-- The transport's receive queue, oldest byte first (R22). -/
  rx        : List Byte
  /-- The transmit trace the engine appends to (R22). -/
  trace     : List TxEvent
  /-- Whether the transport reports the end of a transmission begun now (R113). -/
  txReports : Bool
  /-- The model's own field: what the outside does before each coming poll, the next one first (R29). -/
  inputs    : List PollInput
  deriving DecidableEq, Repr

/-- Why the machine stops. -/
inductive Fault where
  /-- STUCK: `TxWaitComplete` never returns. Raised by `send` (`Machine/Ops.lean`) when `RS485` is true and the
  transport does not report the end of the transmission: "the engine stays in this step for ever, which a model
  shows as a stuck state" (R113, R124, U9). Safe: the hardware takes no further step either. -/
  | transmitNeverCompletes
  /-- A frame of more than 256 bytes would be built. Raised by `build` (`Machine/Ops.lean`), and only for a term
  that is no frame of the spec, an RHR.RSP of more than 125 registers: TXF has no address past 255 (R30), and no
  frame the engine builds is longer than 255 bytes (R115). Safe: no step of the machine meets it. -/
  | txFrameOverflow
  deriving DecidableEq, Repr

/-- Why the model gives an instruction no meaning. -/
inductive Refusal where
  /-- An instruction that has no meaning yet. Raised by no arm of `exec`. Safe: the machine stops. -/
  | notModelled (mnemonic : String)
  deriving DecidableEq, Repr

/-- Reset for any configuration and any `regs_init` (R28, R142): `state` IDLE, `len` 0, `tx_en`, `bank_busy` and
`out_valid` 0 are the spec's; the values of `t_mark`, `buf`, `tx` and `tx_len`, which R28 leaves unspecified, and
the start values of the outside are the model's (`notes/assumptions/4.md`, `notes/assumptions/6.md`). -/
def State.resetWith (cfg : Config) (regsInit : Bank) : State where
  cfg := cfg
  regs := regsInit
  fsm := .idle
  len := 0
  tMark := 0
  raw := []
  txf := []
  txLen := 0
  txEn := false
  bankBusy := false
  outcome := .noActivity
  now := 0
  rx := []
  trace := []
  txReports := true
  inputs := []

/-- The configuration of `State.reset`: slave 1 and 10 registers as in the source's scenario 1, a threshold of 5
ticks, no RS-485 (DESIGN CHOICE, `notes/assumptions/2.md`: the spec leaves all four open). -/
def Config.atReset : Config := { slave := 0x01#8, n := 10, silence := 5, rs485 := false }

/-- The machine right after reset, with every register 0 (DESIGN CHOICE, `notes/assumptions/3.md`: `regs_init` is
an argument of the spec's model). `State.resetWith` is the same for every configuration and bank. -/
def State.reset : State := State.resetWith Config.atReset []

end Sys2Proof.Machine
end

