-- ==== Sys2Proof/Machine/Ops.lean ====
section
/-! DEFINITION. The named operations over the storage spaces (`20_memory.md`), the transport primitives
(`10_state.md` R22), BUILD and SEND (`44_frame_build_send.md` R107, R112, R113), taking an exception and the drop
(`60_exceptions.md` R125, R130), and the end of a cycle (`45_service.md` R123). -/

namespace Sys2Proof.Machine

/-- The outcome of one stage handed to the next; a fault or refusal ends the step. -/
def andThen (o : Host.Outcome State Fault Refusal) (f : State → Host.Outcome State Fault Refusal) :
    Host.Outcome State Fault Refusal :=
  match o with
  | .next s => f s
  | .fault r => .fault r
  | .refused r => .refused r

/-! ## Storage cells -/

/-- What an address with no entry reads as (DESIGN CHOICE, `notes/assumptions/5.md`). -/
def unlisted (w : Nat) : BitVec w := 0#w

/-- The value at an address. -/
def Cells.read {w : Nat} : Cells w → Nat → BitVec w
  | [], _ => unlisted w
  | (b, u) :: t, a => if b = a then u else Cells.read t a

/-- An entry put in its place by address. -/
def Cells.insert {w : Nat} : Cells w → Nat → BitVec w → Cells w
  | [], a, v => [(a, v)]
  | (b, u) :: t, a, v => if a < b then (a, v) :: (b, u) :: t else (b, u) :: Cells.insert t a v

/-- Store a value at an address, keeping the canonical form: the old entry goes, and a new one is listed unless the
value is what an unlisted address reads as. -/
def Cells.write {w : Nat} (m : Cells w) (a : Nat) (v : BitVec w) : Cells w :=
  let rest := m.filter (fun c => c.1 != a)
  if v = unlisted w then rest else Cells.insert rest a v

/-- Store values at consecutive ascending addresses (R81, R106). -/
def Cells.writeList {w : Nat} : Cells w → Nat → List (BitVec w) → Cells w
  | m, _, [] => m
  | m, a, v :: t => Cells.writeList (Cells.write m a v) (a + 1) t

/-- The values at `k` consecutive addresses from `a` on. -/
def Cells.readList {w : Nat} (m : Cells w) (a k : Nat) : List (BitVec w) :=
  (List.range k).map (fun i => Cells.read m (a + i))

/-- The canonical form: addresses strictly rising, no entry that reads as an unlisted address does. -/
def Cells.canonical {w : Nat} : Cells w → Bool
  | [] => true
  | (a, v) :: t => v != unlisted w && t.all (fun c => decide (a < c.1)) && Cells.canonical t

/-- The canonical form of a byte space. -/
def Memory.wf (m : Memory) : Bool := Cells.canonical (w := 8) m

/-- Every listed address lies below `bound`, the size of the space. -/
def Cells.below {w : Nat} (m : Cells w) (bound : Nat) : Bool := m.all (fun c => decide (c.1 < bound))

/-! ## The spaces -/

/-- `buf[0..len)`, the candidate frame in arrival order (R19, R81). -/
def State.frame (s : State) : List Byte := Cells.readList (w := 8) s.raw 0 s.len.val

/-- `tx[0..tx_len)`, the frame last built (R20). -/
def State.txFrame (s : State) : List Byte := Cells.readList (w := 8) s.txf 0 s.txLen.val

/-- `regs[start], …, regs[start+count-1]` in ascending order (R101, R106). -/
def State.readRegs (s : State) (start count : Nat) : List Word := Cells.readList s.regs start count

/-- `regs[start+i] <- d(i)` in ascending order (R102, R103, R106). -/
def State.writeRegs (s : State) (start : Nat) (d : List Word) : State :=
  { s with regs := Cells.writeList s.regs start d }

/-! ## BUILD, STAMP and SEND -/

/-- BUILD (R107, R112): the body and its CRC into `tx`, and `tx_len`; nothing else is written. TXF has 256
addresses (R30), so a longer frame has no place. -/
def build (body : List Byte) (s : State) : Host.Outcome State Fault Refusal :=
  if h : (stamp body).length < 257 then
    .next { s with txf := Cells.writeList (w := 8) s.txf 0 (stamp body), txLen := ⟨(stamp body).length, h⟩ }
  else .fault .txFrameOverflow

/-- `TxEnable(v)` (R22): drives `tx_en`. -/
def txEnable (v : Bool) (s : State) : State := { s with txEn := v, trace := s.trace ++ [.enable v] }

/-- `TxPush(b)` for each byte, in order (R22, R113). -/
def txPushAll (bytes : List Byte) (s : State) : State := { s with trace := s.trace ++ bytes.map .byte }

/-- `TxWaitComplete()` (R22, R113): returns when the transport reports transmission complete; if it never does, the
engine stays in this step for ever. -/
def txWaitComplete (s : State) : Host.Outcome State Fault Refusal :=
  if s.txReports then .next { s with trace := s.trace ++ [.complete] } else .fault .transmitNeverCompletes

/-- SEND (R113): the frame in `tx`, between the enable events if `RS485`. -/
def send (s : State) : Host.Outcome State Fault Refusal :=
  if s.cfg.rs485 then
    andThen (txWaitComplete (txPushAll s.txFrame (txEnable true s))) (fun s1 => .next (txEnable false s1))
  else .next (txPushAll s.txFrame s)

/-! ## Outcome, exceptions, drops and the end of a cycle -/

/-- The Outcome the step reports (R26). -/
def report (o : ServiceOutcome) (s : State) : State := { s with outcome := o }

/-- Build a response, send it, report (R100, R118). -/
def respond (body : List Byte) (o : ServiceOutcome) (s : State) : Host.Outcome State Fault Refusal :=
  andThen (build body s) fun s1 => andThen (send s1) fun s2 => .next (report o s2)

/-- TAKING AN EXCEPTION, `raise Exception(code)` (R125, R134): no register is read or written, EXC.RSP(`SLAVE`,
`p_fn`, code) is built and sent, the step reports exception(code); nothing is saved. -/
def raiseException (fn : Byte) (code : ExcCode) (s : State) : Host.Outcome State Fault Refusal :=
  respond (excRspBody s.cfg.slave fn code) (.exception code) s

/-- The end of a cycle (R79, R123), which is all the return from an exception there is (R134, R135: "the next
service step is an ordinary poll in IDLE"): `len <- 0`, `state <- IDLE`, `bank_busy <- 0`. -/
def endCycle (s : State) : State := { s with len := 0, fsm := .idle, bankBusy := false }

/-- `drop(reason)` (R130): no transmission, no register access, Outcome no-reply. -/
def dropFrame (r : DropReason) (s : State) : State := report (.noReply r) s

/-- A frame for another slave is dropped without a response (R57, R86). PARSE has made this test before a request
reaches its meaning, so in a step it always passes here (`notes/assumptions/15.md`). -/
def addressed (slave : Byte) (s : State) (k : Host.Outcome State Fault Refusal) : Host.Outcome State Fault Refusal :=
  if slave = s.cfg.slave then k else .next (dropFrame .foreign s)

/-! ## Reset of a running block -/

/-- `rst = 1` on a clock edge (R28, R142, R143): the engine's registers take their reset values; the bank, the
configuration, the transport and what R28 leaves unspecified stay as they are. -/
def engineReset (s : State) : State :=
  { s with fsm := .idle, len := 0, txEn := false, bankBusy := false, outcome := .noActivity }

end Sys2Proof.Machine
end

