-- ==== Sys2Proof/Machine/Assembler.lean ====
section
/-! DEFINITION. The Frame Assembler (`41_frame_assembler.md` R72 to R82): POLL and its transitions, over the bytes
waiting in the receive queue and the sampled time. -/

namespace Sys2Proof.Machine

/-- The three results of POLL (R72); FRAME's length is `len`. -/
inductive PollResult where
  | none
  | frame
  | overflow
  deriving DecidableEq, Repr

/-- Elapsed time, `now - t_mark` in naturals (R80). -/
def elapsed (s : State) : Nat := s.now - s.tMark

/-- Drain all waiting bytes to RawFrame from index `base` on (R74, R75, R81), or, if they do not fit in `MAXFRAME`,
discard them with the buffer (R78). -/
def drain (base : Nat) (s : State) : PollResult × State :=
  if h : base + s.rx.length < 257 then
    (.none, { s with raw := Cells.writeList (w := 8) s.raw base s.rx, len := ⟨base + s.rx.length, h⟩, tMark := s.now,
                     fsm := .accumulating, rx := [] })
  else (.overflow, { s with rx := [], len := 0, fsm := .idle })

/-- The frame is complete (R77): SETTLED, and the engine holds the bank (R27). -/
def settle (s : State) : PollResult × State := (.frame, { s with fsm := .settled, bankBusy := true })

/-- POLL for a given elapsed time (R72, table R82). A poll that starts in SETTLED drains nothing and hands the frame
on (R79); between service steps there is no such state. -/
def pollAt (elapsedTicks : Nat) (s : State) : PollResult × State :=
  match s.fsm with
  | .idle => if s.rx = [] then (.none, s) else drain 0 s
  | .accumulating =>
    if s.rx = [] then (if elapsedTicks < s.cfg.silence then (.none, s) else settle s) else drain s.len.val s
  | .settled => settle s

/-- POLL (R72). -/
def poll (s : State) : PollResult × State := pollAt (elapsed s) s

/-- The host's moves on the bank between steps (R11, R40): writes in order; an index at or above `N` names no register
of the bank and is no move. -/
def hostWrites (n : Nat) : Bank → List (Nat × Word) → Bank
  | b, [] => b
  | b, (i, v) :: t => hostWrites n (if i < n then Cells.write b i v else b) t

/-- What the outside does before a poll, taken from the head of the schedule (R11, R117); with an empty schedule the
outside does nothing and no time passes (`notes/assumptions/1.md`). -/
def takeInputs (s : State) : State :=
  match s.inputs with
  | [] => s
  | p :: rest =>
    { s with inputs := rest, now := s.now + p.ticks, rx := s.rx ++ p.arrivals, txReports := p.txReports,
             regs := hostWrites s.cfg.n s.regs p.hostWrites }

end Sys2Proof.Machine
end

