-- ==== Sys2Proof/Machine/Validate.lean ====
section
/-! DEFINITION. The Request Validator (`42_parse_validate.md` R91 to R98): it reads no register and writes nothing;
the first rule that fails decides the exception code. -/

namespace Sys2Proof.Machine

/-- VALIDATE (R91): `p45` is `p_count` for 0x03 and 0x10 and `p_value` for 0x06, `n` the bank size, `len` the
length of the frame. The sum `p_start + p_count` is formed without wrap-around (R96). -/
def validate (fn : Byte) (start p45 : Word) (n len : Nat) : Option ExcCode :=
  if !supported fn then some .illegalFunction
  else if fn = fnWrite1 then
    if start.toNat < n then none else some .illegalDataAddress
  else
    let limit := if fn = fnRead then maxRead else maxWrite
    if ¬ (1 ≤ p45.toNat ∧ p45.toNat ≤ limit) then some .illegalDataValue
    else if ¬ (start.toNat + p45.toNat ≤ n) then some .illegalDataAddress
    else if fn = fnWriteN ∧ ¬ (9 + 2 * p45.toNat ≤ len) then some .illegalDataValue
    else none

end Sys2Proof.Machine
end

