-- ==== Sys2Proof/Machine/Requests.lean ====
section
/-! DEFINITION. The meanings of the four request rows (`43_register_ops.md` R100 to R106): what PROCESS does with a
parsed request (`45_service.md` R118), that is validate, then the register accesses, build and send, or the
exception. The operands are the ParsedRequest; the length of the frame is that of the operands. -/

namespace Sys2Proof.Machine

/-- RHR (R101): read `count` registers from `start` on and answer them; the bank is unchanged. -/
def execRhr (slave : Byte) (start count : Word) (surplus : List Byte) (s : State) : Host.Outcome State Fault Refusal :=
  addressed slave s <|
    match validate fnRead start count s.cfg.n (requestLen surplus) with
    | some code => raiseException fnRead code s
    | none => respond (rhrRspBody s.cfg.slave (s.readRegs start.toNat count.toNat)) (.frameProcessed (requestLen surplus)) s

/-- WSR (R102): store `value` at `addr` and echo both. -/
def execWsr (slave : Byte) (addr value : Word) (surplus : List Byte) (s : State) : Host.Outcome State Fault Refusal :=
  addressed slave s <|
    match validate fnWrite1 addr value s.cfg.n (requestLen surplus) with
    | some code => raiseException fnWrite1 code s
    | none => respond (wsrRspBody s.cfg.slave addr value) (.frameProcessed (requestLen surplus)) (s.writeRegs addr.toNat [value])

/-- WMR (R103): store the first `count` data words from `start` on and answer `start` and `count`. -/
def execWmr (slave : Byte) (start count : Word) (rest : List Byte) (s : State) : Host.Outcome State Fault Refusal :=
  addressed slave s <|
    match validate fnWriteN start count s.cfg.n (requestLen rest) with
    | some code => raiseException fnWriteN code s
    | none => respond (wmrRspBody s.cfg.slave start count) (.frameProcessed (requestLen rest))
        (s.writeRegs start.toNat (dataWords count.toNat rest))

/-- ILLFN (R104): the exception illegal-function, whatever the payload. -/
def execIllfn (slave fn : Byte) (_payload : List Byte) (s : State) : Host.Outcome State Fault Refusal :=
  addressed slave s (raiseException fn .illegalFunction s)

end Sys2Proof.Machine
end

