-- ==== Sys2Proof/Machine/Responses.lean ====
section
/-! DEFINITION. The meanings of the four response rows (`44_frame_build_send.md` R107 to R112): BUILD of the frame,
which writes `tx[0..tx_len)` and `tx_len` and nothing else. The request that causes a response builds it by the
same operation and then sends it (`Machine/Ops.lean`, `respond`). -/

namespace Sys2Proof.Machine

/-- RHR.RSP (R108). -/
def execRhrRsp (slave : Byte) (values : List Word) (s : State) : Host.Outcome State Fault Refusal :=
  build (rhrRspBody slave values) s

/-- WSR.RSP (R109). -/
def execWsrRsp (slave : Byte) (addr value : Word) (s : State) : Host.Outcome State Fault Refusal :=
  build (wsrRspBody slave addr value) s

/-- WMR.RSP (R110). -/
def execWmrRsp (slave : Byte) (start count : Word) (s : State) : Host.Outcome State Fault Refusal :=
  build (wmrRspBody slave start count) s

/-- EXC.RSP (R111). -/
def execExcRsp (slave fn : Byte) (code : ExcCode) (s : State) : Host.Outcome State Fault Refusal :=
  build (excRspBody slave fn code) s

end Sys2Proof.Machine
end

