-- ==== Sys2Proof/Machine/Dispatch.lean ====
section
/-! DEFINITION. One arm per row of the opcode table, each one call of its meaning. -/

namespace Sys2Proof.Machine

def exec (i : Instr) (s : State) : Host.Outcome State Fault Refusal :=
  match i with
  | .rhr slave start count surplus => Sys2Proof.Machine.execRhr slave start count surplus s
  | .wsr slave addr value surplus => Sys2Proof.Machine.execWsr slave addr value surplus s
  | .wmr slave start count rest => Sys2Proof.Machine.execWmr slave start count rest s
  | .illfn slave fn payload => Sys2Proof.Machine.execIllfn slave fn payload s
  | .rhrRsp slave values => Sys2Proof.Machine.execRhrRsp slave values s
  | .wsrRsp slave addr value => Sys2Proof.Machine.execWsrRsp slave addr value s
  | .wmrRsp slave start count => Sys2Proof.Machine.execWmrRsp slave start count s
  | .excRsp slave fn code => Sys2Proof.Machine.execExcRsp slave fn code s

end Sys2Proof.Machine
end

