-- ==== Sys2Proof/Machine/Service.lean ====
section
/-! DEFINITION. The service entry point (`45_service.md` R117, R118): POLL, then on a settled frame parse, validate,
dispatch, build and send, and the end of the cycle. Also how a table word becomes the frame the next step
runs. -/

namespace Sys2Proof.Machine

/-- PROCESS (R118): PARSE, then the meaning of the request, or the drop. -/
def process (s : State) : Host.Outcome State Fault Refusal :=
  match decodeRequest s.cfg.slave s.frame with
  | .error r => .next (dropFrame r s)
  | .ok i => exec i s

/-- One request/response cycle on a settled frame (R117, R123): PROCESS, then `len <- 0`, `state <- IDLE`. -/
def cycle (s : State) : Host.Outcome State Fault Refusal := andThen (process s) fun s1 => .next (endCycle s1)

/-- SERVICE after the inputs of the poll are in (R117). -/
def service (s : State) : Host.Outcome State Fault Refusal :=
  match poll s with
  | (.none, s1) => .next (report .noActivity s1)
  | (.overflow, s1) => .next (report (.noReply .overflow) s1)
  | (.frame, s1) => cycle s1

/-- A poll in which nothing arrives, the host does nothing, `ticks` pass and a transmission would be completed. -/
def quietPoll (ticks : Nat) : PollInput := { ticks := ticks, arrivals := [], hostWrites := [], txReports := true }

/-- A candidate frame in RawFrame, complete but for the silence, which the next poll of the schedule brings
(R74, R77): `ACCUMULATING`, `len` bytes from index 0 on, an empty receive queue. A list longer than `MAXFRAME` is
cut at 256 bytes. -/
def withCandidate (f : List Byte) (s : State) : State :=
  { s with fsm := .accumulating, raw := Cells.writeList (w := 8) s.raw 0 (f.take maxFrame),
           len := Fin.ofNat 257 (f.take maxFrame).length, tMark := s.now, rx := [],
           inputs := quietPoll s.cfg.silence :: s.inputs }

end Sys2Proof.Machine
end

