-- ==== Sys2Proof/Machine/Step.lean ====
section
/-! DEFINITION. One step: the outside acts, then the block is polled (`45_service.md` R117). -/

namespace Sys2Proof.Machine

/-- One service poll, after what the outside did since the last one (R11, R117). -/
def step (s : State) : Host.Outcome State Fault Refusal := service (takeInputs s)

/-- The state in which the next step fetches and runs the frame of a table word: the frame lies in RawFrame, as
received bytes do, and the next poll brings the silence that settles it (`notes/assumptions/12.md`). -/
def State.withFetchWord (s : State) (nbits w : Nat) : State := withCandidate (tableFrame s.cfg.slave nbits w) s

end Sys2Proof.Machine
end

