-- ==== Sys2Proof/Machine/Flags.lean ====
section
/-! DEFINITION. The block has no status flags (`10_state.md` R14). What it has in their place is the Outcome, an
output of the step; here is its encoding on the ports `out_valid`, `out_kind` and `out_value` (`10_state.md` R24,
R26, decision D36). -/

namespace Sys2Proof.Machine

/-- The number of a no-reply reason on `out_value` (R26). -/
def reasonNumber : DropReason → BitVec 9
  | .overflow => 0#9
  | .short => 1#9
  | .crc => 2#9
  | .foreign => 3#9

/-- The number of an exception code on `out_value` (R26, R62). -/
def codeNumber : ExcCode → BitVec 9
  | .illegalFunction => 1#9
  | .illegalDataAddress => 2#9
  | .illegalDataValue => 3#9
  | .serverFailure => 4#9

/-- `out_valid`: a cycle ended with a result other than no-activity (R24). -/
def ServiceOutcome.valid : ServiceOutcome → Bool
  | .noActivity => false
  | .frameProcessed _ => true
  | .exception _ => true
  | .noReply _ => true

/-- `out_kind` (R26). -/
def ServiceOutcome.kind : ServiceOutcome → BitVec 2
  | .noActivity => 0#2
  | .frameProcessed _ => 1#2
  | .exception _ => 2#2
  | .noReply _ => 3#2

/-- `out_value` (R26). -/
def ServiceOutcome.value : ServiceOutcome → BitVec 9
  | .noActivity => 0#9
  | .frameProcessed len => BitVec.ofNat 9 len
  | .exception code => codeNumber code
  | .noReply reason => reasonNumber reason

end Sys2Proof.Machine
end

