-- ==== Sys2Proof/Machine/Clock.lean ====
section
/-! DEFINITION. The clock-level view of the block: ports (`10_state.md` R24), reset (`70_reset_and_hazards.md` R142,
R146) and the schedule of R159, under which one clock cycle in IDLE or ACCUMULATING is one poll of at most one byte
and a cycle of SETTLED takes as many clock cycles as processing and sending need. It refines the service step, which
is the normative level (decision D1), and `step` does not use it. What R159 leaves open is an input here (`hold`) or a
choice of `notes/assumptions/18.md`. -/

namespace Sys2Proof.Machine

/-- `TW`, the width of the `now` port (R7). -/
def tw : Nat := 32

/-- The input ports in one clock cycle (R24). `reg_rdata` is the bank's own answer and `cfg_*` is `State.cfg`. -/
structure ClockIn where
  /-- `rst`, synchronous, active high (R142). -/
  rst        : Bool
  /-- `rx_valid` and `rx_data`: the oldest waiting byte, if one waits. -/
  rx         : Option Byte
  /-- `tx_ready`: the transmitter takes the byte in this clock cycle. -/
  txReady    : Bool
  /-- `tx_done`: the transmitter has shifted out everything it was given. -/
  txDone     : Bool
  /-- `now`, `TW` bits (R25). -/
  now        : BitVec tw
  /-- What the host writes to the bank in this clock cycle; it has a move only while `bank_busy` is 0 (R27, R40). That
  it has one while `rst` is 1 is the model's choice (DESIGN CHOICE, `notes/assumptions/18.md`). -/
  hostWrites : List (Nat × Word)
  /-- The model's own input: the engine has nothing new to show for this clock cycle of SETTLED, since the number of
  clock cycles SETTLED lasts "is not specified" (R159). A byte on offer stays on offer and is taken whenever the
  transmitter is ready; then `hold` delays the offer of the next byte (`notes/assumptions/18.md`). -/
  hold       : Bool
  deriving DecidableEq, Repr

/-- The output ports (R24). A data port whose valid or enable signal is 0 is unspecified (R28) and shows as `none`. -/
structure Ports where
  /-- `rx_ready`. -/
  rxReady  : Bool
  /-- `tx_valid` and `tx_data`. -/
  tx       : Option Byte
  /-- `tx_en`. -/
  txEn     : Bool
  /-- `reg_addr` while the engine accesses a register. -/
  regAddr  : Option Nat
  /-- `reg_we` and `reg_wdata`. -/
  regWrite : Option Word
  /-- `bank_busy`. -/
  bankBusy : Bool
  /-- `out_valid`, `out_kind`, `out_value`. -/
  outValid : Bool
  outKind  : BitVec 2
  outValue : BitVec 9
  deriving DecidableEq, Repr

/-- Where a cycle of SETTLED is, in the order of R159 (c); `poll` is IDLE or ACCUMULATING. -/
inductive Phase where
  /-- Every clock cycle is one poll. -/
  | poll
  /-- CRC check, decoding and validation. -/
  | check
  /-- RHR: `left` registers to read from `next` on, those already read in `got`. -/
  | read (next left : Nat) (got : List Word) (o : ServiceOutcome)
  /-- WSR, WMR: the words to write from `next` on, and the body of the response. -/
  | write (next : Nat) (left : List Word) (body : List Byte) (o : ServiceOutcome)
  /-- BUILD and STAMP. -/
  | build (body : List Byte) (o : ServiceOutcome)
  /-- `tx_en` rises, if `RS485`. -/
  | enable (o : ServiceOutcome)
  /-- The byte `tx[i]` is presented until `tx_ready`. -/
  | push (i : Nat) (o : ServiceOutcome)
  /-- Between two bytes: `tx[i]` is the next, and is not yet on offer. -/
  | gap (i : Nat) (o : ServiceOutcome)
  /-- Wait for `tx_done`, then `tx_en` falls, if `RS485`. -/
  | wait (o : ServiceOutcome)
  /-- `out_valid` pulses and the state is IDLE. -/
  | finish (o : ServiceOutcome)
  deriving DecidableEq, Repr

/-- The clock-level state: the architectural state and the place in SETTLED. -/
structure ClockState where
  s     : State
  phase : Phase
  deriving DecidableEq, Repr

/-- Elapsed time of a hardware instance, `(now - t_mark) mod 2^TW` (R80, R157). -/
def elapsedTW (now tMark : Nat) : Nat := (BitVec.ofNat tw now - BitVec.ofNat tw tMark).toNat

/-- What a request found good or refused has yet to do (R118, R159 c). -/
def plan (i : Instr) (s : State) : Phase :=
  match i with
  | .rhr _ start count surplus =>
    match validate fnRead start count s.cfg.n (requestLen surplus) with
    | some code => .build (excRspBody s.cfg.slave fnRead code) (.exception code)
    | none => .read start.toNat count.toNat [] (.frameProcessed (requestLen surplus))
  | .wsr _ addr value surplus =>
    match validate fnWrite1 addr value s.cfg.n (requestLen surplus) with
    | some code => .build (excRspBody s.cfg.slave fnWrite1 code) (.exception code)
    | none => .write addr.toNat [value] (wsrRspBody s.cfg.slave addr value) (.frameProcessed (requestLen surplus))
  | .wmr _ start count rest =>
    match validate fnWriteN start count s.cfg.n (requestLen rest) with
    | some code => .build (excRspBody s.cfg.slave fnWriteN code) (.exception code)
    | none => .write start.toNat (dataWords count.toNat rest) (wmrRspBody s.cfg.slave start count) (.frameProcessed (requestLen rest))
  | .illfn _ fn _ => .build (excRspBody s.cfg.slave fn .illegalFunction) (.exception .illegalFunction)
  | .rhrRsp _ _ => .finish .noActivity
  | .wsrRsp _ _ _ => .finish .noActivity
  | .wmrRsp _ _ _ => .finish .noActivity
  | .excRsp _ _ _ => .finish .noActivity

/-- The byte on `tx_data` with `tx_valid = 1`, if one is on offer (R24, R159 c). -/
def txByte (c : ClockState) : Option Byte :=
  match c.phase with
  | .push k _ => if k < c.s.txLen.val then some (Cells.read (w := 8) c.s.txf k) else none
  | _ => none

/-- One clock cycle of SETTLED that makes progress (R159 c). -/
def advance (i : ClockIn) (c : ClockState) : ClockState :=
  match c.phase with
  | .poll => c
  | .check =>
    match decodeRequest c.s.cfg.slave c.s.frame with
    | .error r => { c with phase := .finish (.noReply r) }
    | .ok req => { c with phase := plan req c.s }
  | .read _ 0 got o => { c with phase := .build (rhrRspBody c.s.cfg.slave got) o }
  | .read next (left + 1) got o => { c with phase := .read (next + 1) left (got ++ [Cells.read c.s.regs next]) o }
  | .write _ [] body o => { c with phase := .build body o }
  | .write next (v :: left) body o => { s := c.s.writeRegs next [v], phase := .write (next + 1) left body o }
  | .build body o =>
    match build body c.s with
    | .next s1 => { s := s1, phase := .enable o }
    | _ => c
  | .enable o => { s := if c.s.cfg.rs485 then txEnable true c.s else c.s, phase := .push 0 o }
  | .push k o =>
    if k < c.s.txLen.val then
      (if i.txReady then { s := txPushAll [Cells.read (w := 8) c.s.txf k] c.s,
                           phase := if i.hold then .gap (k + 1) o else .push (k + 1) o }
       else c)
    else { c with phase := .wait o }
  | .gap k o => { c with phase := .push k o }
  | .wait o =>
    if c.s.cfg.rs485 then
      (if i.txDone then { s := txEnable false { c.s with trace := c.s.trace ++ [.complete] }, phase := .finish o } else c)
    else { c with phase := .finish o }
  | .finish o => { s := report o (endCycle c.s), phase := .poll }

/-- One poll of at most one byte in one clock cycle (R159 a, b, d). -/
def clockPoll (i : ClockIn) (s : State) : ClockState :=
  let s1 := { s with now := i.now.toNat, rx := i.rx.toList, regs := hostWrites s.cfg.n s.regs i.hostWrites }
  match pollAt (elapsedTW s1.now s1.tMark) s1 with
  | (.none, s2) => { s := report .noActivity s2, phase := .poll }
  | (.overflow, s2) => { s := report (.noReply .overflow) s2, phase := .poll }
  | (.frame, s2) => { s := report .noActivity s2, phase := .check }

/-- One rising clock edge (R142, R159). Reset abandons a cycle wherever it is (R146) and does not write the bank (R143);
a host write in that clock cycle takes effect, since `bank_busy` is 0 in it. The spec does not speak of that clock
cycle: DESIGN CHOICE, `notes/assumptions/18.md`. While a byte is on offer, `hold` does not keep the transfer from
happening (R24). -/
def tick (i : ClockIn) (c : ClockState) : ClockState :=
  if i.rst then
    { s := engineReset { c.s with regs := hostWrites c.s.cfg.n c.s.regs i.hostWrites }, phase := .poll }
  else if c.phase = .poll then clockPoll i c.s
  else if i.hold && (txByte c).isNone then c
  else advance i c

/-- The output ports during a clock cycle; while `rst` is 1 they have their reset values (R28, R146). -/
def ports (i : ClockIn) (c : ClockState) : Ports where
  rxReady := !i.rst && c.phase == .poll
  tx := if i.rst then none else txByte c
  txEn := !i.rst && c.s.txEn
  regAddr := match i.rst, i.hold, c.phase with
    | false, false, .read next (_ + 1) _ _ => some next
    | false, false, .write next (_ :: _) _ _ => some next
    | _, _, _ => none
  regWrite := match i.rst, i.hold, c.phase with
    | false, false, .write _ (v :: _) _ _ => some v
    | _, _, _ => none
  bankBusy := !i.rst && c.s.bankBusy
  outValid := !i.rst && c.s.outcome.valid
  outKind := if i.rst then 0 else c.s.outcome.kind
  outValue := if i.rst then 0 else c.s.outcome.value

/-- The rest of a send from byte `k` on, and the end of the cycle. -/
def pushRest (k : Nat) (o : ServiceOutcome) (s : State) : Host.Outcome State Fault Refusal :=
  let s1 := txPushAll (s.txFrame.drop k) s
  if s.cfg.rs485 then andThen (txWaitComplete s1) fun s2 => .next (endCycle (report o (txEnable false s2)))
  else .next (endCycle (report o s1))

/-- The state in which a cycle under way will end, its remaining work done at once by the operations of the service
step. -/
def completion (c : ClockState) : Host.Outcome State Fault Refusal :=
  match c.phase with
  | .poll => .next c.s
  | .check => cycle c.s
  | .read next left got o =>
    andThen (respond (rhrRspBody c.s.cfg.slave (got ++ c.s.readRegs next left)) o c.s) fun s1 => .next (endCycle s1)
  | .write next left body o => andThen (respond body o (c.s.writeRegs next left)) fun s1 => .next (endCycle s1)
  | .build body o => andThen (respond body o c.s) fun s1 => .next (endCycle s1)
  | .enable o => andThen (send c.s) fun s1 => .next (endCycle (report o s1))
  | .push k o => pushRest k o c.s
  | .gap k o => pushRest k o c.s
  | .wait o =>
    if c.s.cfg.rs485 then andThen (txWaitComplete c.s) fun s2 => .next (endCycle (report o (txEnable false s2)))
    else .next (endCycle (report o c.s))
  | .finish o => .next (endCycle (report o c.s))

end Sys2Proof.Machine
end

