-- ==== Sys2Proof/Safety.lean ====
section
/-! DEFINITION. What counts as a sound state and a sound answer, in the terms the statements use. These predicates
describe results independently of how the meanings compute them. -/

namespace Sys2Proof

open Machine

/-- The three storage spaces are in canonical form and list no address outside their size (`20_memory.md` R30), and
`N` is legal (R7). -/
def SpacesSound (s : State) : Prop :=
  s.cfg.Legal ∧
  Cells.canonical s.regs = true ∧ Cells.below s.regs s.cfg.n = true ∧
  Memory.wf s.raw = true ∧ Cells.below (w := 8) s.raw 256 = true ∧
  Memory.wf s.txf = true ∧ Cells.below (w := 8) s.txf 256 = true

/-- The assembler's invariants between two steps (R16, R17, R18, R25): never SETTLED; IDLE holds no byte,
ACCUMULATING at least one; the mark is an earlier sample of `now`. -/
def AssemblerSound (s : State) : Prop :=
  s.fsm ≠ .settled ∧
  (s.fsm = .idle → s.len.val = 0) ∧
  (s.fsm = .accumulating → 1 ≤ s.len.val ∧ s.tMark ≤ s.now)

/-- The invariant of the machine between two steps: sound spaces, a sound assembler, the transmit-enable signal and
`bank_busy` at 0 (R27, R139). -/
def Inv (s : State) : Prop := SpacesSound s ∧ AssemblerSound s ∧ s.txEn = false ∧ s.bankBusy = false

/-- The transmit trace of one send (R113): with `RS485` the enable rises, the bytes follow in order, the transmission
completes, the enable falls; without it the bytes only. -/
def sendTrace (rs485 : Bool) (bytes : List Byte) : List TxEvent :=
  if rs485 then TxEvent.enable true :: bytes.map TxEvent.byte ++ [TxEvent.complete, TxEvent.enable false]
  else bytes.map TxEvent.byte

/-- The transport reports the end of a transmission if the engine waits for it (R113). -/
def CanSend (s : State) : Prop := s.cfg.rs485 = true → s.txReports = true

/-- Nothing but the register bank, the transmit buffer, the transmit side and the reported Outcome differs. -/
def EngineUntouched (s t : State) : Prop :=
  t.cfg = s.cfg ∧ t.fsm = s.fsm ∧ t.len = s.len ∧ t.tMark = s.tMark ∧ t.raw = s.raw ∧ t.bankBusy = s.bankBusy ∧
  t.now = s.now ∧ t.rx = s.rx ∧ t.txReports = s.txReports ∧ t.inputs = s.inputs

/-- `t` is `s` after the frame `bytes` was built and sent and `o` reported, whatever became of the bank: TXF holds the
frame from index 0 on and is unchanged from `bytes.length` on; the trace grew by one send; `tx_en` is 0 after an
RS-485 send and untouched otherwise. -/
def Answered (s t : State) (bytes : List Byte) (o : ServiceOutcome) : Prop :=
  t.outcome = o ∧ t.trace = s.trace ++ sendTrace s.cfg.rs485 bytes ∧
  t.txLen.val = bytes.length ∧ t.txFrame = bytes ∧
  (∀ a, bytes.length ≤ a → Cells.read (w := 8) t.txf a = Cells.read (w := 8) s.txf a) ∧
  t.txEn = (if s.cfg.rs485 then false else s.txEn) ∧ EngineUntouched s t

/-- `t` is `s` after the frame `bytes` was built (R107): TXF holds it from index 0 on and is unchanged from
`bytes.length` on, `tx_len` is its length, and nothing else differs, neither the bank nor the transmit side. -/
def Built (s t : State) (bytes : List Byte) : Prop :=
  t.txLen.val = bytes.length ∧ t.txFrame = bytes ∧
  (∀ a, bytes.length ≤ a → Cells.read (w := 8) t.txf a = Cells.read (w := 8) s.txf a) ∧
  t.regs = s.regs ∧ t.outcome = s.outcome ∧ t.trace = s.trace ∧ t.txEn = s.txEn ∧ EngineUntouched s t

/-- Every register reads as before (R12: the bank is word-addressed, one 16-bit cell an index). -/
def BankUnchanged (s t : State) : Prop := ∀ a, Cells.read t.regs a = Cells.read s.regs a

/-- The result of one candidate frame by the nine checks of R99 in their order, on the bytes of the frame by position:
the first check that fails decides. -/
def frameVerdict (slave : Byte) (n : Nat) (f : List Byte) : ServiceOutcome :=
  let len := f.length
  let at8 := fun k => f.getD k 0#8
  let start := (be16 (at8 2) (at8 3)).toNat
  let count := (be16 (at8 4) (at8 5)).toNat
  if len < 4 then .noReply .short
  else if be16 (at8 (len - 1)) (at8 (len - 2)) ≠ crc16 (f.take (len - 2)) then .noReply .crc
  else if at8 0 ≠ slave then .noReply .foreign
  else if at8 1 ≠ 0x03#8 ∧ at8 1 ≠ 0x06#8 ∧ at8 1 ≠ 0x10#8 then .exception .illegalFunction
  else if len < 8 then .noReply .short
  else if at8 1 = 0x06#8 then
    (if start < n then .frameProcessed len else .exception .illegalDataAddress)
  else if ¬ (1 ≤ count ∧ count ≤ if at8 1 = 0x03#8 then 125 else 123) then .exception .illegalDataValue
  else if ¬ (start + count ≤ n) then .exception .illegalDataAddress
  else if at8 1 = 0x10#8 ∧ len < 9 + 2 * count then .exception .illegalDataValue
  else .frameProcessed len

/-- Two states that differ at most in what no rule reads (R18, R19, R20, `93_implementation_defined.md` U7): RawFrame
at and past `len`, TxFrame, and `t_mark` outside ACCUMULATING. -/
def SameButUnread (s t : State) : Prop :=
  t.cfg = s.cfg ∧ t.regs = s.regs ∧ t.fsm = s.fsm ∧ t.len = s.len ∧ t.frame = s.frame ∧
  (s.fsm = .accumulating → t.tMark = s.tMark) ∧ t.txEn = s.txEn ∧ t.bankBusy = s.bankBusy ∧ t.outcome = s.outcome ∧
  t.now = s.now ∧ t.rx = s.rx ∧ t.trace = s.trace ∧ t.txReports = s.txReports ∧ t.inputs = s.inputs

/-- An Outcome with another length in a frame-processed; the other Outcomes carry no length. -/
def withLength (n : Nat) : ServiceOutcome → ServiceOutcome
  | .noActivity => .noActivity
  | .frameProcessed _ => .frameProcessed n
  | .exception code => .exception code
  | .noReply reason => .noReply reason

/-- The result of a step but for the length reported, which is `n`. -/
def relength (n : Nat) (o : Host.Outcome State Fault Refusal) : Host.Outcome State Fault Refusal :=
  andThen o fun t => .next { t with outcome := withLength n t.outcome }

/-- `bytes` is a frame stamped with the CRC of what stands before its last two bytes (R45, R112). -/
def Stamped (bytes : List Byte) : Prop := ∃ body, bytes = body ++ [lo (crc16 body), hi (crc16 body)]

end Sys2Proof
end

