-- ==== Sys2Proof/Certificates/Slice0/Obligations.lean ====
section
/-! DEFINITION. The statements for the provers. Each formalises rules of `spec/`, named in its docstring; a clause
that rests on a choice of the model names its log entry. Hypotheses are on the state and the operands alone. -/

open Sys2Proof Sys2Proof.Machine

/-! ## Encoding -/

/-- Words written out byte by byte from the layouts R47 to R53, R56 (the frames of vectors S1, V40, V50, V21, and the
responses of S1, V40, V50, V33) decode to the instructions they stand for. -/
def Obligations.WrittenFramesDecode : Prop :=
  decodeRequest 0x01#8 [0x01#8, 0x03#8, 0x00#8, 0x00#8, 0x00#8, 0x02#8, 0xC4#8, 0x0B#8]
    = .ok (.rhr 0x01#8 0#16 2#16 []) ∧
  decodeRequest 0x01#8 [0x01#8, 0x06#8, 0x00#8, 0x05#8, 0x12#8, 0x34#8, 0x94#8, 0xBC#8]
    = .ok (.wsr 0x01#8 5#16 0x1234#16 []) ∧
  decodeRequest 0x01#8 [0x01#8, 0x10#8, 0x00#8, 0x02#8, 0x00#8, 0x03#8, 0x06#8, 0xAA#8, 0xBB#8, 0x00#8, 0x01#8,
      0x80#8, 0x00#8, 0x8B#8, 0x5B#8]
    = .ok (.wmr 0x01#8 2#16 3#16 [0x06#8, 0xAA#8, 0xBB#8, 0x00#8, 0x01#8, 0x80#8, 0x00#8]) ∧
  decodeRequest 0x01#8 [0x01#8, 0x07#8, 0x41#8, 0xE2#8] = .ok (.illfn 0x01#8 0x07#8 []) ∧
  decodeResponse [0x01#8, 0x03#8, 0x04#8, 0x00#8, 0x0B#8, 0x00#8, 0x16#8, 0x0A#8, 0x3F#8]
    = .ok (.rhrRsp 0x01#8 [11#16, 22#16]) ∧
  decodeResponse [0x01#8, 0x06#8, 0x00#8, 0x05#8, 0x12#8, 0x34#8, 0x94#8, 0xBC#8]
    = .ok (.wsrRsp 0x01#8 5#16 0x1234#16) ∧
  decodeResponse [0x01#8, 0x10#8, 0x00#8, 0x02#8, 0x00#8, 0x03#8, 0x21#8, 0xC8#8]
    = .ok (.wmrRsp 0x01#8 2#16 3#16) ∧
  decodeResponse [0x01#8, 0x83#8, 0x02#8, 0xC0#8, 0xF1#8] = .ok (.excRsp 0x01#8 0x83#8 .illegalDataAddress)

/-- For every well-formed request, with every operand at every value its encoding admits, PARSE of the encoded frame,
under the frame's own slave address, gives the request back (R47 to R49, R54, R56). -/
def Obligations.RequestDecodeEncodeRoundTrip : Prop :=
  ∀ i : Instr, i.isRequest = true → i.wellFormed = true → decodeRequest i.slave (encode i) = .ok i

/-- For every well-formed response, decoding the encoded frame gives the response back (R50 to R53). -/
def Obligations.ResponseDecodeEncodeRoundTrip : Prop :=
  ∀ i : Instr, i.isRequest = false → i.wellFormed = true → decodeResponse (encode i) = .ok i

/-- Each accepted frame has one meaning: a frame of at most 256 bytes that PARSE accepts is the encoding of the request
it gives, which is well-formed and carries the slave address (R45, R54). -/
def Obligations.AcceptedRequestIsItsEncoding : Prop :=
  ∀ (slave : Byte) (f : List Byte) (i : Instr), f.length ≤ 256 → decodeRequest slave f = .ok i →
    encode i = f ∧ i.wellFormed = true ∧ i.isRequest = true ∧ i.slave = slave

/-- PARSE in full (R83): the strict order of its steps and the fields it returns, by position in the frame. -/
def Obligations.ParseFollowsItsSteps : Prop :=
  ∀ (slave : Byte) (f : List Byte),
    let body := f.take (f.length - 2)
    let crcOk := be16 (f.getD (f.length - 1) 0#8) (f.getD (f.length - 2) 0#8) = crc16 body
    let fn := f.getD 1 0#8
    let start := be16 (f.getD 2 0#8) (f.getD 3 0#8)
    let p45 := be16 (f.getD 4 0#8) (f.getD 5 0#8)
    (f.length < 4 → decodeRequest slave f = .error .short) ∧
    (4 ≤ f.length → ¬ crcOk → decodeRequest slave f = .error .crc) ∧
    (4 ≤ f.length → crcOk → f.getD 0 0#8 ≠ slave → decodeRequest slave f = .error .foreign) ∧
    (4 ≤ f.length → crcOk → f.getD 0 0#8 = slave →
      (fn ≠ 0x03#8 ∧ fn ≠ 0x06#8 ∧ fn ≠ 0x10#8 → decodeRequest slave f = .ok (.illfn slave fn (body.drop 2))) ∧
      (fn = 0x03#8 ∨ fn = 0x06#8 ∨ fn = 0x10#8 → f.length < 8 → decodeRequest slave f = .error .short) ∧
      (fn = 0x03#8 → 8 ≤ f.length → decodeRequest slave f = .ok (.rhr slave start p45 (body.drop 6))) ∧
      (fn = 0x06#8 → 8 ≤ f.length → decodeRequest slave f = .ok (.wsr slave start p45 (body.drop 6))) ∧
      (fn = 0x10#8 → 8 ≤ f.length → decodeRequest slave f = .ok (.wmr slave start p45 (body.drop 6))))

/-- The data words of an accepted write-multiple (R54): word `j` is `be16(buf[7+2*j], buf[8+2*j])` of the frame, for
every word that stands before the CRC. -/
def Obligations.DataWordsStandByPosition : Prop :=
  ∀ (slave sl : Byte) (f : List Byte) (start count : Word) (rest : List Byte),
    decodeRequest slave f = .ok (.wmr sl start count rest) → 9 + 2 * count.toNat ≤ f.length →
    (dataWords count.toNat rest).length = count.toNat ∧
    ∀ j, j < count.toNat →
      (dataWords count.toNat rest).getD j 0#16 = be16 (f.getD (7 + 2 * j) 0#8) (f.getD (8 + 2 * j) 0#8)

/-- What a master sees of an echoed exception response (R58, R156, N10): the engine's own exception frame, fed back,
parses as an ILLFN request whose answer is an exception response with the same function byte. -/
def Obligations.EchoedExceptionParsesAsRequest : Prop :=
  ∀ (slave fn : Byte) (code : ExcCode),
    decodeRequest slave (encode (.excRsp slave fn code)) = .ok (.illfn slave (fn ||| 0x80#8) [excByte code]) ∧
    encode (.excRsp slave (fn ||| 0x80#8) code) = encode (.excRsp slave fn code)

/-! ## CRC Engine -/

/-- Round trip (R70): any byte sequence with its CRC appended, low byte first, passes CRC.CHECK, and the CRC of the
whole stamped sequence is 0x0000. -/
def Obligations.StampedSequenceVerifies : Prop :=
  ∀ m : List Byte, crcCheck (m ++ [lo (crc16 m), hi (crc16 m)]) = true ∧
    crc16 (m ++ [lo (crc16 m), hi (crc16 m)]) = 0x0000#16

/-- CRC.CHECK (R69): on a frame of at least 4 bytes it is true exactly when the last but one byte is the low byte and
the last byte the high byte of the CRC of the bytes before them. -/
def Obligations.CrcCheckComparesLowThenHigh : Prop :=
  ∀ f : List Byte, 4 ≤ f.length →
    (crcCheck f = true ↔
      f.getD (f.length - 2) 0#8 = lo (crc16 (f.take (f.length - 2))) ∧
      f.getD (f.length - 1) 0#8 = hi (crc16 (f.take (f.length - 2))))

/-- The realisation by a 256-entry table gives the same accumulator as eight shifts, for every accumulator and byte
(R71: "All give the same values"). -/
def Obligations.CrcTableRealisationAgrees : Prop :=
  ∀ (acc : Word) (b : Byte), crcByteByTable acc b = crcByte acc b

/-- CRC.SHIFT bit by bit (R65): bit `j` of the result is bit `j+1` of the operand, the top bit a zero, exclusive-or with
bit `j` of 0xA001 when bit 0 of the operand was 1. -/
def Obligations.CrcShiftMovesEveryBit : Prop :=
  ∀ (acc : Word) (j : Nat), j < 16 →
    (crcShift acc).getLsbD j =
      ((if j = 15 then false else acc.getLsbD (j + 1)) ^^ (acc.getLsbD 0 && (j == 15 || j == 13 || j == 0)))

/-! ## Validator -/

/-- VALIDATE in full (R91, with R92 to R97): which code each request gets, and when it passes; the sum of start and
count does not wrap. -/
def Obligations.ValidateDecidesTheCode : Prop :=
  ∀ (fn : Byte) (start p45 : Word) (n len : Nat),
    let a := start.toNat
    let c := p45.toNat
    (validate fn start p45 n len = some .illegalFunction ↔ fn ≠ 0x03#8 ∧ fn ≠ 0x06#8 ∧ fn ≠ 0x10#8) ∧
    (validate fn start p45 n len = some .illegalDataAddress ↔
      (fn = 0x06#8 ∧ n ≤ a) ∨ (fn = 0x03#8 ∧ 1 ≤ c ∧ c ≤ 125 ∧ n < a + c) ∨
      (fn = 0x10#8 ∧ 1 ≤ c ∧ c ≤ 123 ∧ n < a + c)) ∧
    (validate fn start p45 n len = some .illegalDataValue ↔
      (fn = 0x03#8 ∧ (c = 0 ∨ 125 < c)) ∨ (fn = 0x10#8 ∧ (c = 0 ∨ 123 < c)) ∨
      (fn = 0x10#8 ∧ 1 ≤ c ∧ c ≤ 123 ∧ a + c ≤ n ∧ len < 9 + 2 * c)) ∧
    (validate fn start p45 n len = none ↔
      (fn = 0x06#8 ∧ a < n) ∨ (fn = 0x03#8 ∧ 1 ≤ c ∧ c ≤ 125 ∧ a + c ≤ n) ∨
      (fn = 0x10#8 ∧ 1 ≤ c ∧ c ≤ 123 ∧ a + c ≤ n ∧ 9 + 2 * c ≤ len))

/-! ## Requests: result, frame, completion -/

/-- RHR (R101, R108): a read of 1 to 125 registers inside the bank completes; the response is slave, 0x03, `2*count`,
the registers big-endian in ascending order, and the CRC; no register changes, and nothing but the transmit side,
TXF and the Outcome does. -/
def Obligations.ReadAnswersBankContents : Prop :=
  ∀ (s : State) (start count : Word) (surplus : List Byte), CanSend s →
    1 ≤ count.toNat → count.toNat ≤ 125 → start.toNat + count.toNat ≤ s.cfg.n →
    ∃ t bytes, exec (.rhr s.cfg.slave start count surplus) s = .next t ∧
      Answered s t bytes (.frameProcessed (8 + surplus.length)) ∧ BankUnchanged s t ∧
      bytes.length = 5 + 2 * count.toNat ∧ Stamped bytes ∧
      bytes.getD 0 0#8 = s.cfg.slave ∧ bytes.getD 1 0#8 = 0x03#8 ∧ (bytes.getD 2 0#8).toNat = 2 * count.toNat ∧
      ∀ i, i < count.toNat →
        be16 (bytes.getD (3 + 2 * i) 0#8) (bytes.getD (4 + 2 * i) 0#8) = Cells.read s.regs (start.toNat + i)

/-- WSR (R102, R109): a write to an address inside the bank completes; that register has the value, every other register
reads as before, the response is slave, 0x06, address, value and the CRC. -/
def Obligations.WriteSingleStoresAndEchoes : Prop :=
  ∀ (s : State) (addr value : Word) (surplus : List Byte), CanSend s → addr.toNat < s.cfg.n →
    ∃ t, exec (.wsr s.cfg.slave addr value surplus) s = .next t ∧
      Answered s t (stamp [s.cfg.slave, 0x06#8, hi addr, lo addr, hi value, lo value])
        (.frameProcessed (8 + surplus.length)) ∧
      Cells.read t.regs addr.toNat = value ∧
      ∀ a, a ≠ addr.toNat → Cells.read t.regs a = Cells.read s.regs a

/-- WMR (R103, R110): a write of 1 to 123 registers inside the bank whose data the frame holds completes; register
`start+i` has data word `i` (bytes `7+2*i` and `8+2*i` of the frame, which are `rest[1+2*i]` and `rest[2+2*i]`), every
other register reads as before, the response is slave, 0x10, start, count and the CRC. -/
def Obligations.WriteMultipleStoresItsWords : Prop :=
  ∀ (s : State) (start count : Word) (rest : List Byte), CanSend s →
    1 ≤ count.toNat → count.toNat ≤ 123 → start.toNat + count.toNat ≤ s.cfg.n →
    9 + 2 * count.toNat ≤ 8 + rest.length →
    ∃ t, exec (.wmr s.cfg.slave start count rest) s = .next t ∧
      Answered s t (stamp [s.cfg.slave, 0x10#8, hi start, lo start, hi count, lo count])
        (.frameProcessed (8 + rest.length)) ∧
      (∀ i, i < count.toNat →
        Cells.read t.regs (start.toNat + i) = be16 (rest.getD (1 + 2 * i) 0#8) (rest.getD (2 + 2 * i) 0#8)) ∧
      ∀ a, a < start.toNat ∨ start.toNat + count.toNat ≤ a → Cells.read t.regs a = Cells.read s.regs a

/-- ILLFN (R104, R111): the request completes with the exception illegal-function, 0x01; no register changes. -/
def Obligations.UnsupportedFunctionIsAnswered : Prop :=
  ∀ (s : State) (fn : Byte) (payload : List Byte), CanSend s →
    fn ≠ 0x03#8 → fn ≠ 0x06#8 → fn ≠ 0x10#8 →
    ∃ t, exec (.illfn s.cfg.slave fn payload) s = .next t ∧
      Answered s t (stamp [s.cfg.slave, fn ||| 0x80#8, 0x01#8]) (.exception .illegalFunction) ∧ BankUnchanged s t

/-- Taking an exception (R125, R127, R128, with the order of R93 to R97): each request that VALIDATE refuses is answered
by slave, function OR 0x80, code and the CRC, and touches no register. -/
def Obligations.RefusedRequestTakesItsException : Prop :=
  ∀ (s : State) (start p45 : Word) (after : List Byte), CanSend s →
    let a := start.toNat
    let c := p45.toNat
    let n := s.cfg.n
    let refused := fun (i : Instr) (fn : Byte) (code : ExcCode) (b : Byte) =>
      ∃ t, exec i s = .next t ∧ Answered s t (stamp [s.cfg.slave, fn, b]) (.exception code) ∧ BankUnchanged s t
    ((c = 0 ∨ 125 < c) → refused (.rhr s.cfg.slave start p45 after) 0x83#8 .illegalDataValue 0x03#8) ∧
    (1 ≤ c → c ≤ 125 → n < a + c → refused (.rhr s.cfg.slave start p45 after) 0x83#8 .illegalDataAddress 0x02#8) ∧
    (n ≤ a → refused (.wsr s.cfg.slave start p45 after) 0x86#8 .illegalDataAddress 0x02#8) ∧
    ((c = 0 ∨ 123 < c) → refused (.wmr s.cfg.slave start p45 after) 0x90#8 .illegalDataValue 0x03#8) ∧
    (1 ≤ c → c ≤ 123 → n < a + c → refused (.wmr s.cfg.slave start p45 after) 0x90#8 .illegalDataAddress 0x02#8) ∧
    (1 ≤ c → c ≤ 123 → a + c ≤ n → 8 + after.length < 9 + 2 * c →
      refused (.wmr s.cfg.slave start p45 after) 0x90#8 .illegalDataValue 0x03#8)

/-- A request that carries another slave's address is dropped by its meaning too (R57, R86; that the meaning makes the
test PARSE has made is the model's choice, `notes/assumptions/15.md`): the Outcome is no-reply (foreign) and nothing
else changes. -/
def Obligations.ForeignRequestIsDropped : Prop :=
  ∀ (s : State) (i : Instr), i.isRequest = true → i.slave ≠ s.cfg.slave →
    exec i s = .next { s with outcome := .noReply .foreign }

/-- With `RS485` and a transport that never reports the end of the transmission, every request of this slave is stuck
in its send (R113, R124). -/
def Obligations.UnreportedTransmissionIsStuck : Prop :=
  ∀ (s : State) (i : Instr), i.isRequest = true → i.slave = s.cfg.slave → s.cfg.rs485 = true → s.txReports = false →
    exec i s = .fault .transmitNeverCompletes

/-! ## Responses: BUILD -/

/-- RHR.RSP (R108): building a read response of 1 to 125 registers completes; TXF holds slave, 0x03, `2*c`, the values
big-endian and the CRC, `tx_len = 5 + 2*c`, and nothing else changes. -/
def Obligations.ReadResponseIsBuilt : Prop :=
  ∀ (s : State) (slave : Byte) (values : List Word), 1 ≤ values.length → values.length ≤ 125 →
    ∃ t bytes, exec (.rhrRsp slave values) s = .next t ∧ Built s t bytes ∧
      bytes.length = 5 + 2 * values.length ∧ Stamped bytes ∧
      bytes.getD 0 0#8 = slave ∧ bytes.getD 1 0#8 = 0x03#8 ∧ (bytes.getD 2 0#8).toNat = 2 * values.length ∧
      ∀ i, i < values.length →
        bytes.getD (3 + 2 * i) 0#8 = hi (values.getD i 0#16) ∧ bytes.getD (4 + 2 * i) 0#8 = lo (values.getD i 0#16)

/-- WSR.RSP (R109) and WMR.RSP (R110): building completes with slave, function, the two fields high byte first, and the
CRC; `tx_len = 8`, and nothing else changes. -/
def Obligations.WriteResponsesAreBuilt : Prop :=
  ∀ (s : State) (slave : Byte) (a b : Word),
    (∃ t, exec (.wsrRsp slave a b) s = .next t ∧ t.txLen.val = 8 ∧
      Built s t (stamp [slave, 0x06#8, hi a, lo a, hi b, lo b])) ∧
    (∃ t, exec (.wmrRsp slave a b) s = .next t ∧ t.txLen.val = 8 ∧
      Built s t (stamp [slave, 0x10#8, hi a, lo a, hi b, lo b]))

/-- EXC.RSP (R111): building completes with slave, the function byte with bit 7 set, the code and the CRC; a function
byte that has bit 7 set is emitted unchanged (R58); `tx_len = 5`, and nothing else changes. -/
def Obligations.ExceptionResponseIsBuilt : Prop :=
  ∀ (s : State) (slave fn : Byte) (code : ExcCode),
    ∃ t, exec (.excRsp slave fn code) s = .next t ∧ t.txLen.val = 5 ∧
      Built s t (stamp [slave, fn ||| 0x80#8, excByte code]) ∧ (fn.msb = true → t.txFrame.getD 1 0#8 = fn)

/-- A read response of more than 125 registers is no frame of the spec (R50, R115); building it stops by name, since
TXF has no address past 255 (R30; `notes/assumptions/8.md`). -/
def Obligations.OverlongReadResponseStops : Prop :=
  ∀ (s : State) (slave : Byte) (values : List Word), 125 < values.length →
    exec (.rhrRsp slave values) s = .fault .txFrameOverflow

/-! ## SEND -/

/-- SEND (R113): with `RS485` the trace grows by enable, the bytes of `tx` in order, complete, enable off, and `tx_en`
ends at 0; without it by the bytes only, and `tx_en` is untouched; a completion that is never reported leaves the
machine stuck; nothing else changes. -/
def Obligations.SendSequencesTransmitEnable : Prop :=
  ∀ s : State,
    (s.cfg.rs485 = true → s.txReports = true →
      send s = .next { s with
        txEn := false
        trace := s.trace ++ TxEvent.enable true :: s.txFrame.map TxEvent.byte ++ [.complete, .enable false] }) ∧
    (s.cfg.rs485 = true → s.txReports = false → send s = .fault .transmitNeverCompletes) ∧
    (s.cfg.rs485 = false → send s = .next { s with trace := s.trace ++ s.txFrame.map TxEvent.byte })

/-! ## Assembler -/

/-- The transition table of POLL (R82), row by row: the rule that applies gives the next state and the result; a settled
frame is in SETTLED after POLL and in IDLE after the service step (R79). -/
def Obligations.PollFollowsTransitionTable : Prop :=
  ∀ s : State,
    let k := s.rx.length
    let r := poll s
    (s.fsm = .idle → k = 0 → r.1 = .none ∧ r.2.fsm = .idle) ∧
    (s.fsm = .idle → 1 ≤ k → k ≤ 256 → r.1 = .none ∧ r.2.fsm = .accumulating ∧ r.2.len.val = k) ∧
    (s.fsm = .idle → 256 < k → r.1 = .overflow ∧ r.2.fsm = .idle ∧ r.2.len.val = 0) ∧
    (s.fsm = .accumulating → 1 ≤ k → s.len.val + k ≤ 256 →
      r.1 = .none ∧ r.2.fsm = .accumulating ∧ r.2.len.val = s.len.val + k) ∧
    (s.fsm = .accumulating → 256 < s.len.val + k → 1 ≤ k → r.1 = .overflow ∧ r.2.fsm = .idle ∧ r.2.len.val = 0) ∧
    (s.fsm = .accumulating → k = 0 → s.now - s.tMark < s.cfg.silence → r.1 = .none ∧ r.2.fsm = .accumulating) ∧
    (s.fsm = .accumulating → k = 0 → s.cfg.silence ≤ s.now - s.tMark →
      r.1 = .frame ∧ r.2.fsm = .settled ∧ r.2.len = s.len ∧
      ∀ t, service s = .next t → t.fsm = .idle ∧ t.len.val = 0)

/-- A quiet poll (R73, R76): in IDLE with no byte waiting, or in ACCUMULATING before the silence has elapsed, the step
reports no-activity and changes nothing the outside has not changed. -/
def Obligations.QuietPollChangesNothing : Prop :=
  ∀ s : State, (takeInputs s).rx = [] →
    (s.fsm = .idle ∨ s.fsm = .accumulating ∧ (takeInputs s).now - s.tMark < s.cfg.silence) →
    step s = .next { takeInputs s with outcome := .noActivity }

/-- Bytes arrive and fit (R74, R75, R81): the step drains them all, in arrival order, behind the bytes already held (in
IDLE none are), restarts the timer whatever the elapsed time, and sends nothing; the bank and TXF are unchanged. -/
def Obligations.ArrivingBytesAreAppended : Prop :=
  ∀ s : State,
    let u := takeInputs s
    let held := if s.fsm = .idle then [] else s.frame
    s.fsm ≠ .settled → u.rx ≠ [] → held.length + u.rx.length ≤ 256 →
    ∃ t, step s = .next t ∧ t.outcome = .noActivity ∧ t.fsm = .accumulating ∧ t.frame = held ++ u.rx ∧
      t.len.val = held.length + u.rx.length ∧ t.tMark = u.now ∧ t.rx = [] ∧
      t.regs = u.regs ∧ t.txf = u.txf ∧ t.trace = s.trace ∧ t.txEn = s.txEn ∧ t.cfg = s.cfg ∧ t.inputs = u.inputs

/-- Overflow (R78, R131): bytes that would make the frame longer than 256 are all consumed and dropped with the buffer;
state IDLE, `len` 0, Outcome no-reply (overflow), nothing sent, the bank unchanged. -/
def Obligations.OverflowDiscardsEverything : Prop :=
  ∀ s : State,
    let u := takeInputs s
    let held := if s.fsm = .idle then [] else s.frame
    s.fsm ≠ .settled → u.rx ≠ [] → 256 < held.length + u.rx.length →
    step s = .next { u with rx := [], len := 0, fsm := .idle, outcome := .noReply .overflow }

/-- A frame that arrives in pieces over any number of polls, with any gaps between them, is one candidate frame
(R75, R153): after as many steps as there are pieces the assembler holds all the bytes in order. -/
def Obligations.PiecesMakeOneFrame : Prop :=
  ∀ (ps : List PollInput) (rest : List PollInput) (s : State),
    let held := if s.fsm = .idle then [] else s.frame
    let all := held ++ (ps.map PollInput.arrivals).flatten
    ps ≠ [] → (∀ p ∈ ps, p.arrivals ≠ []) → s.fsm ≠ .settled → s.rx = [] → s.inputs = ps ++ rest → all.length ≤ 256 →
    ∃ t, Host.Core.run Sys2Proof.core ps.length s = .next t ∧ t.fsm = .accumulating ∧ t.frame = all ∧ t.rx = [] ∧
      t.inputs = rest ∧ t.trace = s.trace ∧ t.outcome = .noActivity

/-! ## The service step -/

/-- A step runs the decoded request (R117, R118): when the poll finds the silence elapsed and the frame parses as `i`,
the step is `exec i` in SETTLED with the bank held, and then the end of the cycle, `len <- 0`, `state <- IDLE`,
`bank_busy <- 0` (R79, R123). When the frame does not parse, it is the drop and the end of the cycle. -/
def Obligations.StepRunsTheParsedRequest : Prop :=
  ∀ s : State, s.fsm = .accumulating → (takeInputs s).rx = [] → s.cfg.silence ≤ (takeInputs s).now - s.tMark →
    (∀ i, decodeRequest s.cfg.slave s.frame = .ok i →
      step s = match exec i { takeInputs s with fsm := .settled, bankBusy := true } with
        | .next t => .next { t with len := 0, fsm := .idle, bankBusy := false }
        | .fault r => .fault r
        | .refused r => .refused r) ∧
    (∀ r, decodeRequest s.cfg.slave s.frame = .error r →
      step s = .next { takeInputs s with len := 0, fsm := .idle, bankBusy := false, outcome := .noReply r })

/-- A table word placed by `withFetchWord` is what the next step runs, in every state: the frame is that of the word
under the state's own slave address (the placing is the model's, `notes/assumptions/12.md`). -/
def Obligations.FetchWordIsRunNext : Prop :=
  ∀ (s : State) (nbits w : Nat) (i : Instr), decodeRequest s.cfg.slave (tableFrame s.cfg.slave nbits w) = .ok i →
    ∃ u, step (s.withFetchWord nbits w) = andThen (exec i u) (fun t => .next (endCycle t)) ∧
      u.regs = s.regs ∧ u.cfg = s.cfg ∧ u.trace = s.trace ∧ u.fsm = .settled ∧ u.inputs = s.inputs ∧
      u.frame = tableFrame s.cfg.slave nbits w

/-- The Outcome of a candidate frame is decided by the nine checks of R99 in their order (R133): whatever the frame, the
cycle completes and reports the verdict of the first check that fails, or frame-processed with the frame's length. -/
def Obligations.CycleReportsTheFirstFailure : Prop :=
  ∀ s : State, CanSend s →
    ∃ t, cycle s = .next t ∧ t.outcome = frameVerdict s.cfg.slave s.cfg.n s.frame ∧
      t.fsm = .idle ∧ t.len.val = 0 ∧ t.bankBusy = false

/-- The step is total and the engine never stops (R117, R124): it answers a next state, except when it waits for a
transmission whose end the transport never reports. -/
def Obligations.StepAnswersOrWaitsForTransport : Prop :=
  ∀ s : State, (∃ t, step s = .next t) ∨
    (step s = .fault .transmitNeverCompletes ∧ s.cfg.rs485 = true ∧ (takeInputs s).txReports = false)

/-- At most one frame is sent per step, and only a frame the engine built and stamped, with its own address first, 5 to
255 bytes long, between the enable events if `RS485` (R114, R115, R116, R121). -/
def Obligations.StepSendsAtMostOneStampedFrame : Prop :=
  ∀ s t : State, step s = .next t →
    t.trace = s.trace ∨
    ∃ bytes, t.trace = s.trace ++ sendTrace s.cfg.rs485 bytes ∧ Stamped bytes ∧
      5 ≤ bytes.length ∧ bytes.length ≤ 255 ∧ bytes.getD 0 0#8 = s.cfg.slave

/-- When nothing is sent (R116, R130, R131): after a no-reply of any reason, or no activity, no event was added to the
transmit trace, `tx_en` and TXF are as before, and the bank is as the host left it. -/
def Obligations.NoReplySendsNothing : Prop :=
  ∀ s t : State, step s = .next t → (t.outcome = .noActivity ∨ ∃ r, t.outcome = .noReply r) →
    t.trace = s.trace ∧ t.txEn = s.txEn ∧ t.txf = s.txf ∧ t.txLen = s.txLen ∧ t.regs = (takeInputs s).regs

/-- All or nothing (R105): a register that reads otherwise after a step than the host left it was written by a request
that was processed, a WSR or WMR, and lies inside the bank. -/
def Obligations.OnlyProcessedWritesChangeTheBank : Prop :=
  ∀ (s t : State) (a : Nat), step s = .next t → Cells.read t.regs a ≠ Cells.read (takeInputs s).regs a →
    (∃ n, t.outcome = .frameProcessed n) ∧ a < s.cfg.n ∧
    (s.frame.getD 1 0#8 = 0x06#8 ∨ s.frame.getD 1 0#8 = 0x10#8)

/-- Nothing on the wire reaches the configuration (R15, R137), and the clock never runs backwards (R25): no step changes
`SLAVE`, `N`, `SILENCE` or `RS485` or lowers `now`. -/
def Obligations.StepKeepsConfigurationAndTime : Prop :=
  ∀ s t : State, step s = .next t → t.cfg = s.cfg ∧ s.now ≤ t.now

/-- server-failure is never raised and never sent (R129): no step reports it, and no five-byte exception response that a
step sends carries the code 0x04. -/
def Obligations.ServerFailureIsNeverRaised : Prop :=
  ∀ s t : State, step s = .next t →
    t.outcome ≠ .exception .serverFailure ∧
    ∀ bytes : List Byte, t.trace = s.trace ++ sendTrace s.cfg.rs485 bytes → bytes.length = 5 →
      (bytes.getD 1 0#8).msb = true → bytes.getD 2 0#8 ≠ 0x04#8

/-- The Outcome on its ports (R26), all four kinds, and the argument of frame-processed (R120), which is the length of
the frame that settled, 8 to 256. `out_valid` is 0 for no-activity alone. -/
def Obligations.OutcomeArgumentIsInRange : Prop :=
  ∀ s t : State, step s = .next t →
    (t.outcome = .noActivity → t.outcome.valid = false ∧ t.outcome.kind = 0#2 ∧ t.outcome.value = 0#9) ∧
    (∀ n, t.outcome = .frameProcessed n →
      n = s.len.val ∧ 8 ≤ n ∧ n ≤ 256 ∧ t.outcome.valid = true ∧ t.outcome.kind = 1#2 ∧ t.outcome.value.toNat = n) ∧
    (∀ c, t.outcome = .exception c → t.outcome.valid = true ∧ t.outcome.kind = 2#2 ∧
      (c = .illegalFunction ∧ t.outcome.value = 1#9 ∨ c = .illegalDataAddress ∧ t.outcome.value = 2#9 ∨
        c = .illegalDataValue ∧ t.outcome.value = 3#9)) ∧
    (∀ r, t.outcome = .noReply r → t.outcome.valid = true ∧ t.outcome.kind = 3#2 ∧
      (r = .overflow ∧ t.outcome.value = 0#9 ∨ r = .short ∧ t.outcome.value = 1#9 ∨
        r = .crc ∧ t.outcome.value = 2#9 ∨ r = .foreign ∧ t.outcome.value = 3#9))

/-- What no rule reads cannot matter (R18, R19, R20, R84): two states that differ only in RawFrame at and past `len`, in
TxFrame, and in `t_mark` outside ACCUMULATING, take steps with the same result and stay so. -/
def Obligations.UnreadStorageCannotMatter : Prop :=
  ∀ s s' : State, SameButUnread s s' →
    (∃ t t', step s = .next t ∧ step s' = .next t' ∧ SameButUnread t t') ∨
    (∃ r, step s = .fault r ∧ step s' = .fault r)

/-- End to end (R160): a well-formed request for this slave that arrives in one poll while the assembler is idle, with a
silence of at least `SILENCE` after it and a transport that completes sends, is answered within two steps by
exactly one frame, and the engine is idle again. -/
def Obligations.WellFormedRequestIsAnsweredOnce : Prop :=
  ∀ (s : State) (i : Instr) (p q : PollInput) (rest : List PollInput),
    i.isRequest = true → i.wellFormed = true → i.slave = s.cfg.slave →
    s.fsm = .idle → s.rx = [] → s.inputs = p :: q :: rest →
    p.arrivals = encode i → q.arrivals = [] → s.cfg.silence ≤ q.ticks → q.txReports = true →
    ∃ t bytes, Host.Core.run Sys2Proof.core 2 s = .next t ∧ t.fsm = .idle ∧ t.len.val = 0 ∧
      t.trace = s.trace ++ sendTrace s.cfg.rs485 bytes ∧ Stamped bytes ∧ 5 ≤ bytes.length ∧
      (t.outcome = .frameProcessed (encode i).length ∨ ∃ c, t.outcome = .exception c)

/-! ## Laws over two requests -/

/-- Idempotence (R102): the same write-single request twice leaves the bank as once, and each is answered by the same
bytes. -/
def Obligations.WriteSingleIsIdempotent : Prop :=
  ∀ (s t u : State) (addr value : Word) (surplus : List Byte), addr.toNat < s.cfg.n →
    exec (.wsr s.cfg.slave addr value surplus) s = .next t →
    exec (.wsr s.cfg.slave addr value surplus) t = .next u →
    BankUnchanged t u ∧ u.txFrame = t.txFrame ∧
      ∃ ev, t.trace = s.trace ++ ev ∧ u.trace = t.trace ++ ev

/-- A read returns the latest write, by the master or the host (R41). Let `u` be any state, with the same configuration,
whose register `addr` reads as right after the write, that is any state reached with no later write to it; a read of
that register in `u` answers the value: after a write-single, after a write-multiple (its word for that register), and
after the host's move before a poll (the last of its writes to the register). -/
def Obligations.ReadReturnsTheLatestWrite : Prop :=
  ∀ (s u : State) (addr : Word) (y : List Byte), addr.toNat < s.cfg.n → u.cfg = s.cfg → CanSend u →
    let reads := fun (after : State) (value : Word) => Cells.read u.regs addr.toNat = Cells.read after.regs addr.toNat →
      ∃ v, exec (.rhr s.cfg.slave addr 1#16 y) u = .next v ∧
        Answered u v (stamp [s.cfg.slave, 0x03#8, 0x02#8, hi value, lo value]) (.frameProcessed (8 + y.length))
    (∀ (t : State) (value : Word) (x : List Byte), exec (.wsr s.cfg.slave addr value x) s = .next t → reads t value) ∧
    (∀ (t : State) (start count : Word) (rest : List Byte),
      1 ≤ count.toNat → count.toNat ≤ 123 → start.toNat + count.toNat ≤ s.cfg.n → 1 + 2 * count.toNat ≤ rest.length →
      start.toNat ≤ addr.toNat → addr.toNat < start.toNat + count.toNat →
      exec (.wmr s.cfg.slave start count rest) s = .next t →
      reads t (be16 (rest.getD (1 + 2 * (addr.toNat - start.toNat)) 0#8) (rest.getD (2 + 2 * (addr.toNat - start.toNat)) 0#8))) ∧
    (∀ (p : PollInput) (polls : List PollInput) (before after : List (Nat × Word)) (value : Word),
      s.inputs = p :: polls → p.hostWrites = before ++ (addr.toNat, value) :: after → (∀ q ∈ after, q.1 ≠ addr.toNat) →
      reads (takeInputs s) value)

/-- What validation does not examine (R98). The `byte_count` byte of a write-multiple has no effect at all. Surplus bytes,
of a read, of a single write, or after the last data word of a write-multiple, change nothing but the length that a
frame-processed reports: the kind of the Outcome, an exception's code and everything else are the same. The payload of
an unsupported function has no effect at all (R56). -/
def Obligations.UnexaminedBytesHaveNoEffect : Prop :=
  ∀ (s : State) (sl : Byte) (a b : Word),
    (∀ (bc bc' : Byte) (data : List Byte),
      exec (.wmr sl a b (bc :: data)) s = exec (.wmr sl a b (bc' :: data)) s) ∧
    (∀ x y : List Byte, exec (.rhr sl a b y) s = relength (8 + y.length) (exec (.rhr sl a b x) s)) ∧
    (∀ x y : List Byte, exec (.wsr sl a b y) s = relength (8 + y.length) (exec (.wsr sl a b x) s)) ∧
    (∀ rest x : List Byte, 1 + 2 * b.toNat ≤ rest.length →
      exec (.wmr sl a b (rest ++ x)) s = relength (8 + rest.length + x.length) (exec (.wmr sl a b rest) s)) ∧
    (∀ (fn : Byte) (x y : List Byte), exec (.illfn sl fn x) s = exec (.illfn sl fn y) s)

/-! ## Invariants and reset -/

/-- Every step keeps the invariant of the machine: canonical spaces inside their size, a sound assembler, `tx_en` and
`bank_busy` at 0 (R16, R17, R18, R27, R30, R139). -/
def Obligations.StepKeepsInvariant : Prop := ∀ s t : State, Inv s → step s = .next t → Inv t

/-- The state after reset meets the invariant, for every legal configuration and every canonical bank of `N` registers
(R28), and so does the model's own reset state (its configuration and bank are choices, `notes/assumptions/2.md` and
`notes/assumptions/3.md`). -/
def Obligations.ResetMeetsInvariant : Prop :=
  (∀ (cfg : Config) (bank : Bank), cfg.Legal → Cells.canonical bank = true → Cells.below bank cfg.n = true →
    Inv (State.resetWith cfg bank)) ∧ Inv State.reset

/-- Between two steps the state after any cycle is that after reset, apart from the bank, the outside and what is never
read (R122, R143): IDLE, no byte held, `bank_busy` 0, and `tx_en` 0 if it was. -/
def Obligations.CycleEndsAsResetBegins : Prop :=
  ∀ s t : State, step s = .next t → t.outcome ≠ .noActivity →
    t.fsm = .idle ∧ t.len.val = 0 ∧ (s.bankBusy = false → t.bankBusy = false) ∧ (s.txEn = false → t.txEn = false)

/-! ## The clock-level view -/

/-- Elapsed time of a hardware instance (R80, R157): modulo `2^TW` it is the true elapsed time while fewer than `2^TW`
ticks have passed, whatever multiple of `2^TW` the clock has wrapped. -/
def Obligations.WrappedClockMeasuresElapsedTime : Prop :=
  ∀ now tMark : Nat, tMark ≤ now → now - tMark < 2 ^ 32 → elapsedTW (now % 2 ^ 32) (tMark % 2 ^ 32) = now - tMark

/-- Reset at the clock level (R28, R142, R143, R146): from wherever the engine is, `rst = 1` takes the state to IDLE with
`len`, `tx_en`, `bank_busy` and `out_valid` 0, leaves the configuration and the transport alone, and during that clock
cycle no handshake or enable signal is up. The bank holds what the host has written in that clock cycle, and is otherwise
untouched (that the host has a move then is the model's choice, `notes/assumptions/18.md`). -/
def Obligations.ClockResetAbandonsTheCycle : Prop :=
  ∀ (i : ClockIn) (c : ClockState), i.rst = true →
    let t := (tick i c).s
    (tick i c).phase = .poll ∧ t.fsm = .idle ∧ t.len.val = 0 ∧ t.txEn = false ∧ t.bankBusy = false ∧
    t.outcome.valid = false ∧ t.regs = hostWrites c.s.cfg.n c.s.regs i.hostWrites ∧ t.cfg = c.s.cfg ∧ t.rx = c.s.rx ∧ t.trace = c.s.trace ∧
    (ports i c).rxReady = false ∧ (ports i c).tx = none ∧ (ports i c).txEn = false ∧ (ports i c).regWrite = none ∧
    (ports i c).bankBusy = false ∧ (ports i c).outValid = false

/-- Overflow with at most one byte a clock cycle (R159 d) happens exactly when a byte arrives with `len = 256`: then the
byte is taken and dropped, `out_valid` pulses with no-reply and reason overflow, and the state is IDLE. -/
def Obligations.ClockOverflowAtFullBuffer : Prop :=
  ∀ (i : ClockIn) (c : ClockState), i.rst = false → c.phase = .poll → c.s.fsm ≠ .settled →
    ((tick i c).s.outcome = .noReply .overflow ↔ i.rx ≠ none ∧ c.s.fsm = .accumulating ∧ c.s.len.val = 256) ∧
    ((tick i c).s.outcome = .noReply .overflow →
      (tick i c).s.fsm = .idle ∧ (tick i c).s.len.val = 0 ∧ (tick i c).s.rx = [])

/-- The clock-level machine refines the service step (R159): a clock cycle that polls begins a service step on the byte
taken, the sampled time and the host's writes (its result is the state the cycle will end in), and every clock cycle
of SETTLED, held or not, keeps that result. The time must not have wrapped, and the transport must report completion. -/
def Obligations.ClockCyclesRefineServiceStep : Prop :=
  ∀ (i : ClockIn) (c : ClockState), i.rst = false → CanSend c.s →
    (c.phase = .poll → c.s.fsm ≠ .settled → c.s.tMark ≤ i.now.toNat →
      completion (tick i c) = service { c.s with
        now := i.now.toNat, rx := i.rx.toList, regs := hostWrites c.s.cfg.n c.s.regs i.hostWrites }) ∧
    (c.phase ≠ .poll → completion (tick i c) = completion c)

/-- A cycle of SETTLED ends (R159 c: finite when the transport accepts bytes): with a transmitter that is always ready
and always done, and no held clock cycle, a finite number of clock cycles leads back to polling. -/
def Obligations.ClockCycleEnds : Prop :=
  ∀ (i : ClockIn) (c : ClockState), i.rst = false → i.hold = false → i.txReady = true → i.txDone = true →
    (∀ body o, c.phase = .build body o → body.length ≤ 254) →
    (∀ next left got o, c.phase = .read next left got o → got.length + left ≤ 125) →
    (∀ next left body o, c.phase = .write next left body o → body.length ≤ 254) →
    ∃ k, ((tick i)^[k] c).phase = .poll

/-- The transmit handshake (R24, R159 c): a byte on offer is taken exactly in a clock cycle with `tx_ready = 1`, and then
enters the trace once and the next byte is due; until then the same byte stays on offer, `hold` or not.
In a clock cycle with no byte on offer, and under reset, no byte enters the trace. -/
def Obligations.ClockHandsOverEachByteOnce : Prop :=
  ∀ (i : ClockIn) (c : ClockState),
    (∀ b, (ports i c).tx = some b →
      ∃ k o, c.phase = .push k o ∧ k < c.s.txLen.val ∧ b = Cells.read (w := 8) c.s.txf k ∧
        (i.txReady = false → tick i c = c) ∧
        (i.txReady = true → (tick i c).s = { c.s with trace := c.s.trace ++ [.byte b] } ∧
          ((tick i c).phase = .push (k + 1) o ∨ (tick i c).phase = .gap (k + 1) o))) ∧
    ((ports i c).tx = none → ∃ ev, (tick i c).s.trace = c.s.trace ++ ev ∧ ∀ b, TxEvent.byte b ∉ ev)

/-! ## The outside's moves -/

/-- What the outside does before a poll (R11, R40, R117): a register below `N` reads as the last of the host's writes to
it, and every register without one reads as before, as does every index at or above `N` (that a host write there is no
move is the model's choice, `notes/assumptions/10.md`). Time advances, the bytes queue behind those waiting, and nothing
of the engine's own changes. With nothing scheduled nothing changes (`notes/assumptions/1.md`). -/
def Obligations.HostWritesReachTheBank : Prop :=
  ∀ s : State,
    (s.inputs = [] → takeInputs s = s) ∧
    ∀ (p : PollInput) (polls : List PollInput), s.inputs = p :: polls →
      let t := takeInputs s
      (∀ (before after : List (Nat × Word)) (a : Nat) (v : Word),
        p.hostWrites = before ++ (a, v) :: after → a < s.cfg.n → (∀ q ∈ after, q.1 ≠ a) → Cells.read t.regs a = v) ∧
      (∀ a, (∀ q ∈ p.hostWrites, q.1 ≠ a) ∨ s.cfg.n ≤ a → Cells.read t.regs a = Cells.read s.regs a) ∧
      t = { s with inputs := polls, now := s.now + p.ticks, rx := s.rx ++ p.arrivals, txReports := p.txReports,
                   regs := t.regs }
end

