-- ==== Sys2Proof/Laws/Crc.lean ====
section
/-! SUPPORT. Small lemmas about the CRC Engine, the stamp, and the byte order of 16-bit fields. -/

namespace Sys2Proof.Machine

theorem be16_toNat (h l : Byte) : (be16 h l).toNat = 256 * h.toNat + l.toNat := by
  have := l.isLt
  simp only [be16, BitVec.toNat_append]
  rw [← Nat.shiftLeft_add_eq_or_of_lt (by simpa using this), Nat.shiftLeft_eq]
  omega

theorem hi_toNat (v : Word) : (hi v).toNat = v.toNat / 256 := by
  have := v.isLt
  simp only [hi, BitVec.extractLsb'_toNat, Nat.shiftRight_eq_div_pow]
  omega

theorem lo_toNat (v : Word) : (lo v).toNat = v.toNat % 256 := by
  simp [lo, BitVec.extractLsb'_toNat]

@[simp] theorem hi_be16 (h l : Byte) : hi (be16 h l) = h := by
  have := l.isLt; have := h.isLt
  apply BitVec.eq_of_toNat_eq; rw [hi_toNat, be16_toNat]; omega

@[simp] theorem lo_be16 (h l : Byte) : lo (be16 h l) = l := by
  have := l.isLt; have := h.isLt
  apply BitVec.eq_of_toNat_eq; rw [lo_toNat, be16_toNat]; omega

@[simp] theorem be16_hi_lo (v : Word) : be16 (hi v) (lo v) = v := by
  apply BitVec.eq_of_toNat_eq; rw [be16_toNat, hi_toNat, lo_toNat]; omega

@[simp] theorem wordsOf_bytesOf (vs : List Word) : wordsOf (bytesOf vs) = vs := by
  induction vs with
  | nil => rfl
  | cons v t ih => simp [bytesOf, wordsOf, ih]

@[simp] theorem length_bytesOf (vs : List Word) : (bytesOf vs).length = 2 * vs.length := by
  induction vs with
  | nil => rfl
  | cons v t ih => simp only [bytesOf, List.length_cons, ih]; omega

theorem bytesOf_wordsOf : ∀ (bs : List Byte), bs.length % 2 = 0 → bytesOf (wordsOf bs) = bs
  | [], _ => rfl
  | [_], h => by simp at h
  | a :: b :: t, h => by
    have ht : t.length % 2 = 0 := by simp only [List.length_cons] at h; omega
    simp [wordsOf, bytesOf, bytesOf_wordsOf t ht]

@[simp] theorem length_stamp (body : List Byte) : (stamp body).length = body.length + 2 := rfl.trans (by simp [stamp, crcWire])

@[simp] theorem take_stamp (body : List Byte) : (stamp body).take body.length = body := by simp [stamp]

@[simp] theorem drop_stamp (body : List Byte) : (stamp body).drop body.length = crcWire (crc16 body) := by simp [stamp]

theorem crc16_append (m : List Byte) (b : Byte) : crc16 (m ++ [b]) = crcByte (crc16 m) b := by simp [crc16]

@[simp] theorem excOfByte_excByte (c : ExcCode) : excOfByte (excByte c) = some c := by cases c <;> decide

theorem length_twoFieldBody (slave fn : Byte) (a b : Word) (after : List Byte) :
    (twoFieldBody slave fn a b after).length = 6 + after.length := by simp [twoFieldBody]; omega

theorem length_rhrRspBody (slave : Byte) (values : List Word) :
    (rhrRspBody slave values).length = 3 + 2 * values.length := by simp [rhrRspBody]; omega

end Sys2Proof.Machine
end

