-- ==== Sys2Proof/Laws/Cells.lean ====
section
/-! SUPPORT. The laws of storage cells: a read after a write, a write leaves every other address alone, and every
operation keeps the canonical form and the bound of its space. They hold for every list, canonical or not. -/

namespace Sys2Proof.Machine

variable {w : Nat}

@[simp] theorem Cells.read_nil (a : Nat) : Cells.read ([] : Cells w) a = unlisted w := rfl

theorem Cells.read_insert_same (m : Cells w) (a : Nat) (v : BitVec w) (h : ∀ c ∈ m, c.1 ≠ a) :
    Cells.read (Cells.insert m a v) a = v := by
  induction m with
  | nil => simp [Cells.insert, Cells.read]
  | cons c t ih =>
    obtain ⟨b, u⟩ := c
    have hb : b ≠ a := h (b, u) (by simp)
    have ht := ih fun c hc => h c (List.mem_cons_of_mem _ hc)
    by_cases hab : a < b <;> simp [Cells.insert, Cells.read, hab, hb, ht]

theorem Cells.read_insert_other (m : Cells w) {a b : Nat} (v : BitVec w) (h : b ≠ a) :
    Cells.read (Cells.insert m a v) b = Cells.read m b := by
  induction m with
  | nil => simp [Cells.insert, Cells.read, Ne.symm h]
  | cons c t ih =>
    obtain ⟨d, u⟩ := c
    by_cases had : a < d <;> simp [Cells.insert, Cells.read, had, Ne.symm h, ih]

theorem Cells.read_filter_other (m : Cells w) {a b : Nat} (h : b ≠ a) :
    Cells.read (m.filter (fun c => c.1 != a)) b = Cells.read m b := by
  induction m with
  | nil => rfl
  | cons c t ih =>
    obtain ⟨d, u⟩ := c
    by_cases hd : d = a
    · simp [Cells.read, hd, ih, Ne.symm h]
    · simp [Cells.read, hd, ih]

theorem Cells.read_absent (m : Cells w) {a : Nat} (h : ∀ c ∈ m, c.1 ≠ a) : Cells.read m a = unlisted w := by
  induction m with
  | nil => rfl
  | cons c t ih =>
    obtain ⟨d, u⟩ := c
    have hd : d ≠ a := h (d, u) (by simp)
    simpa [Cells.read, hd] using ih fun c hc => h c (List.mem_cons_of_mem _ hc)

/-- A read after a write to the same address gives the value written. -/
@[simp] theorem Cells.read_write_same (m : Cells w) (a : Nat) (v : BitVec w) : Cells.read (Cells.write m a v) a = v := by
  have hf : ∀ c ∈ m.filter (fun c => c.1 != a), c.1 ≠ a := fun c hc => by simpa using (List.mem_filter.mp hc).2
  unfold Cells.write
  by_cases hv : v = unlisted w
  · simp only [hv, if_true]; exact Cells.read_absent _ hf
  · simp only [hv, if_false]; exact Cells.read_insert_same _ a v hf

/-- A write leaves every other address alone. -/
theorem Cells.read_write_other (m : Cells w) {a b : Nat} (v : BitVec w) (h : b ≠ a) :
    Cells.read (Cells.write m a v) b = Cells.read m b := by
  unfold Cells.write
  by_cases hv : v = unlisted w
  · simp only [hv, if_true]; exact Cells.read_filter_other m h
  · simp only [hv, if_false]; rw [Cells.read_insert_other _ v h]; exact Cells.read_filter_other m h

/-- A write of consecutive cells leaves every address below and above them alone. -/
theorem Cells.read_writeList_outside (m : Cells w) (a : Nat) (vs : List (BitVec w)) {b : Nat}
    (h : b < a ∨ a + vs.length ≤ b) : Cells.read (Cells.writeList m a vs) b = Cells.read m b := by
  induction vs generalizing m a with
  | nil => rfl
  | cons v t ih =>
    have hb : b ≠ a := by simp only [List.length_cons] at h; omega
    rw [Cells.writeList, ih _ (a + 1) (by simp only [List.length_cons] at h; omega), Cells.read_write_other m v hb]

/-- A write of consecutive cells puts the `i`-th value at the `i`-th address. -/
theorem Cells.read_writeList_inside (m : Cells w) (a : Nat) (vs : List (BitVec w)) {i : Nat} (h : i < vs.length) :
    Cells.read (Cells.writeList m a vs) (a + i) = vs[i] := by
  induction vs generalizing m a i with
  | nil => simp at h
  | cons v t ih =>
    rw [Cells.writeList]
    cases i with
    | zero => rw [Cells.read_writeList_outside _ (a + 1) t (by omega)]; simp
    | succ j =>
      have hj : j < t.length := by simpa using h
      have e : a + (j + 1) = (a + 1) + j := by omega
      rw [e, ih _ (a + 1) hj]; simp

@[simp] theorem Cells.length_readList (m : Cells w) (a k : Nat) : (Cells.readList m a k).length = k := by
  simp [Cells.readList]

theorem Cells.getElem_readList (m : Cells w) (a k : Nat) {i : Nat} (h : i < (Cells.readList m a k).length) :
    (Cells.readList m a k)[i] = Cells.read m (a + i) := by
  simp [Cells.readList]

/-- Reading back what was written at consecutive addresses. -/
@[simp] theorem Cells.readList_writeList (m : Cells w) (a : Nat) (vs : List (BitVec w)) :
    Cells.readList (Cells.writeList m a vs) a vs.length = vs := by
  refine List.ext_getElem (by simp) fun i h1 h2 => ?_
  rw [Cells.getElem_readList, Cells.read_writeList_inside m a vs h2]

/-! ## The canonical form -/

/-- Bytes stored behind `base` are read behind the bytes below it (R81). -/
theorem Cells.readList_writeList_append (m : Cells w) (base : Nat) (vs : List (BitVec w)) :
    Cells.readList (Cells.writeList m base vs) 0 (base + vs.length) = Cells.readList m 0 base ++ vs := by
  refine List.ext_getElem (by simp) fun i h1 h2 => ?_
  rw [Cells.getElem_readList]
  by_cases hi : i < base
  · rw [Cells.read_writeList_outside _ _ _ (by omega), List.getElem_append_left (by simpa using hi),
      Cells.getElem_readList]
  · simp at h1
    rw [List.getElem_append_right (by simpa using hi)]
    have := Cells.read_writeList_inside m base vs (i := i - base) (by omega)
    rw [show 0 + i = base + (i - base) by omega, this]; simp

theorem Cells.canonical_cons {a : Nat} {v : BitVec w} {t : Cells w} :
    Cells.canonical ((a, v) :: t) = true ↔ v ≠ unlisted w ∧ (∀ c ∈ t, a < c.1) ∧ Cells.canonical t = true := by
  simp [Cells.canonical, and_assoc]

theorem Cells.mem_insert {m : Cells w} {a : Nat} {v : BitVec w} {c : Nat × BitVec w} :
    c ∈ Cells.insert m a v ↔ c = (a, v) ∨ c ∈ m := by
  induction m with
  | nil => simp [Cells.insert]
  | cons d t ih =>
    obtain ⟨b, u⟩ := d
    by_cases hab : a < b
    · simp [Cells.insert, hab]
    · simp [Cells.insert, hab, ih, or_left_comm]

theorem Cells.canonical_filter {m : Cells w} (a : Nat) (h : Cells.canonical m = true) :
    Cells.canonical (m.filter (fun c => c.1 != a)) = true := by
  induction m with
  | nil => rfl
  | cons c t ih =>
    obtain ⟨b, u⟩ := c
    obtain ⟨hu, hlt, ht⟩ := Cells.canonical_cons.mp h
    by_cases hb : b = a
    · simpa [List.filter_cons, hb] using ih ht
    · rw [List.filter_cons_of_pos (by simpa using hb)]
      exact Cells.canonical_cons.mpr ⟨hu, fun c hc => hlt c (List.mem_filter.mp hc).1, ih ht⟩

theorem Cells.canonical_insert {m : Cells w} {a : Nat} {v : BitVec w} (h : Cells.canonical m = true)
    (hv : v ≠ unlisted w) (ha : ∀ c ∈ m, c.1 ≠ a) : Cells.canonical (Cells.insert m a v) = true := by
  induction m with
  | nil => exact Cells.canonical_cons.mpr ⟨hv, by simp, rfl⟩
  | cons c t ih =>
    obtain ⟨b, u⟩ := c
    obtain ⟨hu, hlt, ht⟩ := Cells.canonical_cons.mp h
    have hba : b ≠ a := ha (b, u) (by simp)
    by_cases hab : a < b
    · simp only [Cells.insert, hab, if_true]
      refine Cells.canonical_cons.mpr ⟨hv, fun c hc => ?_, h⟩
      rcases List.mem_cons.mp hc with rfl | hc
      · exact hab
      · exact Nat.lt_trans hab (hlt c hc)
    · simp only [Cells.insert, hab, if_false]
      refine Cells.canonical_cons.mpr ⟨hu, fun c hc => ?_, ih ht fun c hc => ha c (List.mem_cons_of_mem _ hc)⟩
      rcases Cells.mem_insert.mp hc with rfl | hc
      · show b < a; omega
      · exact hlt c hc

/-- A write keeps the canonical form. -/
theorem Cells.canonical_write {m : Cells w} (a : Nat) (v : BitVec w) (h : Cells.canonical m = true) :
    Cells.canonical (Cells.write m a v) = true := by
  unfold Cells.write
  by_cases hv : v = unlisted w
  · simpa only [hv, if_true] using Cells.canonical_filter a h
  · simp only [hv, if_false]
    exact Cells.canonical_insert (Cells.canonical_filter a h) hv fun c hc => by simpa using (List.mem_filter.mp hc).2

/-- A write of consecutive cells keeps the canonical form. -/
theorem Cells.canonical_writeList {m : Cells w} (a : Nat) (vs : List (BitVec w)) (h : Cells.canonical m = true) :
    Cells.canonical (Cells.writeList m a vs) = true := by
  induction vs generalizing m a with
  | nil => exact h
  | cons v t ih => exact ih (a + 1) (Cells.canonical_write a v h)

/-! ## The bound of a space -/

theorem Cells.below_iff {m : Cells w} {n : Nat} : Cells.below m n = true ↔ ∀ c ∈ m, c.1 < n := by
  simp [Cells.below]

theorem Cells.below_write {m : Cells w} {n a : Nat} (v : BitVec w) (h : Cells.below m n = true) (ha : a < n) :
    Cells.below (Cells.write m a v) n = true := by
  have hf : ∀ c ∈ m.filter (fun c => c.1 != a), c.1 < n :=
    fun c hc => Cells.below_iff.mp h c (List.mem_filter.mp hc).1
  rw [Cells.below_iff]
  unfold Cells.write
  by_cases hv : v = unlisted w
  · simpa only [hv, if_true] using hf
  · simp only [hv, if_false]
    intro c hc
    rcases Cells.mem_insert.mp hc with rfl | hc
    · exact ha
    · exact hf c hc

/-- A write of consecutive cells that ends inside the space lists no address outside it. -/
theorem Cells.below_writeList {m : Cells w} {n a : Nat} (vs : List (BitVec w)) (h : Cells.below m n = true)
    (ha : a + vs.length ≤ n) : Cells.below (Cells.writeList m a vs) n = true := by
  induction vs generalizing m a with
  | nil => exact h
  | cons v t ih =>
    simp only [List.length_cons] at ha
    exact ih (Cells.below_write v h (by omega)) (by omega)

end Sys2Proof.Machine
end

