-- ==== Sys2Proof/Laws/State.lean ====
section
/-! SUPPORT. One lemma per field of State and update of it, true by rfl, so that no later proof unfolds a record
update. -/

namespace Sys2Proof.Machine

variable (s : State)

@[simp] theorem report_cfg (o : ServiceOutcome) : (report o s).cfg = s.cfg := rfl
@[simp] theorem report_regs (o : ServiceOutcome) : (report o s).regs = s.regs := rfl
@[simp] theorem report_fsm (o : ServiceOutcome) : (report o s).fsm = s.fsm := rfl
@[simp] theorem report_len (o : ServiceOutcome) : (report o s).len = s.len := rfl
@[simp] theorem report_tMark (o : ServiceOutcome) : (report o s).tMark = s.tMark := rfl
@[simp] theorem report_raw (o : ServiceOutcome) : (report o s).raw = s.raw := rfl
@[simp] theorem report_txf (o : ServiceOutcome) : (report o s).txf = s.txf := rfl
@[simp] theorem report_txLen (o : ServiceOutcome) : (report o s).txLen = s.txLen := rfl
@[simp] theorem report_txEn (o : ServiceOutcome) : (report o s).txEn = s.txEn := rfl
@[simp] theorem report_bankBusy (o : ServiceOutcome) : (report o s).bankBusy = s.bankBusy := rfl
@[simp] theorem report_outcome (o : ServiceOutcome) : (report o s).outcome = o := rfl
@[simp] theorem report_now (o : ServiceOutcome) : (report o s).now = s.now := rfl
@[simp] theorem report_rx (o : ServiceOutcome) : (report o s).rx = s.rx := rfl
@[simp] theorem report_trace (o : ServiceOutcome) : (report o s).trace = s.trace := rfl
@[simp] theorem report_txReports (o : ServiceOutcome) : (report o s).txReports = s.txReports := rfl
@[simp] theorem report_inputs (o : ServiceOutcome) : (report o s).inputs = s.inputs := rfl

@[simp] theorem dropFrame_cfg (r : DropReason) : (dropFrame r s).cfg = s.cfg := rfl
@[simp] theorem dropFrame_regs (r : DropReason) : (dropFrame r s).regs = s.regs := rfl
@[simp] theorem dropFrame_fsm (r : DropReason) : (dropFrame r s).fsm = s.fsm := rfl
@[simp] theorem dropFrame_len (r : DropReason) : (dropFrame r s).len = s.len := rfl
@[simp] theorem dropFrame_tMark (r : DropReason) : (dropFrame r s).tMark = s.tMark := rfl
@[simp] theorem dropFrame_raw (r : DropReason) : (dropFrame r s).raw = s.raw := rfl
@[simp] theorem dropFrame_txf (r : DropReason) : (dropFrame r s).txf = s.txf := rfl
@[simp] theorem dropFrame_txLen (r : DropReason) : (dropFrame r s).txLen = s.txLen := rfl
@[simp] theorem dropFrame_txEn (r : DropReason) : (dropFrame r s).txEn = s.txEn := rfl
@[simp] theorem dropFrame_bankBusy (r : DropReason) : (dropFrame r s).bankBusy = s.bankBusy := rfl
@[simp] theorem dropFrame_outcome (r : DropReason) : (dropFrame r s).outcome = .noReply r := rfl
@[simp] theorem dropFrame_now (r : DropReason) : (dropFrame r s).now = s.now := rfl
@[simp] theorem dropFrame_rx (r : DropReason) : (dropFrame r s).rx = s.rx := rfl
@[simp] theorem dropFrame_trace (r : DropReason) : (dropFrame r s).trace = s.trace := rfl
@[simp] theorem dropFrame_txReports (r : DropReason) : (dropFrame r s).txReports = s.txReports := rfl
@[simp] theorem dropFrame_inputs (r : DropReason) : (dropFrame r s).inputs = s.inputs := rfl

@[simp] theorem endCycle_cfg : (endCycle s).cfg = s.cfg := rfl
@[simp] theorem endCycle_regs : (endCycle s).regs = s.regs := rfl
@[simp] theorem endCycle_fsm : (endCycle s).fsm = .idle := rfl
@[simp] theorem endCycle_len : (endCycle s).len = 0 := rfl
@[simp] theorem endCycle_tMark : (endCycle s).tMark = s.tMark := rfl
@[simp] theorem endCycle_raw : (endCycle s).raw = s.raw := rfl
@[simp] theorem endCycle_txf : (endCycle s).txf = s.txf := rfl
@[simp] theorem endCycle_txLen : (endCycle s).txLen = s.txLen := rfl
@[simp] theorem endCycle_txEn : (endCycle s).txEn = s.txEn := rfl
@[simp] theorem endCycle_bankBusy : (endCycle s).bankBusy = false := rfl
@[simp] theorem endCycle_outcome : (endCycle s).outcome = s.outcome := rfl
@[simp] theorem endCycle_now : (endCycle s).now = s.now := rfl
@[simp] theorem endCycle_rx : (endCycle s).rx = s.rx := rfl
@[simp] theorem endCycle_trace : (endCycle s).trace = s.trace := rfl
@[simp] theorem endCycle_txReports : (endCycle s).txReports = s.txReports := rfl
@[simp] theorem endCycle_inputs : (endCycle s).inputs = s.inputs := rfl

@[simp] theorem writeRegs_cfg (a : Nat) (d : List Word) : (s.writeRegs a d).cfg = s.cfg := rfl
@[simp] theorem writeRegs_regs (a : Nat) (d : List Word) : (s.writeRegs a d).regs = Cells.writeList s.regs a d := rfl
@[simp] theorem writeRegs_fsm (a : Nat) (d : List Word) : (s.writeRegs a d).fsm = s.fsm := rfl
@[simp] theorem writeRegs_len (a : Nat) (d : List Word) : (s.writeRegs a d).len = s.len := rfl
@[simp] theorem writeRegs_tMark (a : Nat) (d : List Word) : (s.writeRegs a d).tMark = s.tMark := rfl
@[simp] theorem writeRegs_raw (a : Nat) (d : List Word) : (s.writeRegs a d).raw = s.raw := rfl
@[simp] theorem writeRegs_txf (a : Nat) (d : List Word) : (s.writeRegs a d).txf = s.txf := rfl
@[simp] theorem writeRegs_txLen (a : Nat) (d : List Word) : (s.writeRegs a d).txLen = s.txLen := rfl
@[simp] theorem writeRegs_txEn (a : Nat) (d : List Word) : (s.writeRegs a d).txEn = s.txEn := rfl
@[simp] theorem writeRegs_bankBusy (a : Nat) (d : List Word) : (s.writeRegs a d).bankBusy = s.bankBusy := rfl
@[simp] theorem writeRegs_outcome (a : Nat) (d : List Word) : (s.writeRegs a d).outcome = s.outcome := rfl
@[simp] theorem writeRegs_now (a : Nat) (d : List Word) : (s.writeRegs a d).now = s.now := rfl
@[simp] theorem writeRegs_rx (a : Nat) (d : List Word) : (s.writeRegs a d).rx = s.rx := rfl
@[simp] theorem writeRegs_trace (a : Nat) (d : List Word) : (s.writeRegs a d).trace = s.trace := rfl
@[simp] theorem writeRegs_txReports (a : Nat) (d : List Word) : (s.writeRegs a d).txReports = s.txReports := rfl
@[simp] theorem writeRegs_inputs (a : Nat) (d : List Word) : (s.writeRegs a d).inputs = s.inputs := rfl

@[simp] theorem txEnable_cfg (v : Bool) : (txEnable v s).cfg = s.cfg := rfl
@[simp] theorem txEnable_regs (v : Bool) : (txEnable v s).regs = s.regs := rfl
@[simp] theorem txEnable_fsm (v : Bool) : (txEnable v s).fsm = s.fsm := rfl
@[simp] theorem txEnable_len (v : Bool) : (txEnable v s).len = s.len := rfl
@[simp] theorem txEnable_tMark (v : Bool) : (txEnable v s).tMark = s.tMark := rfl
@[simp] theorem txEnable_raw (v : Bool) : (txEnable v s).raw = s.raw := rfl
@[simp] theorem txEnable_txf (v : Bool) : (txEnable v s).txf = s.txf := rfl
@[simp] theorem txEnable_txLen (v : Bool) : (txEnable v s).txLen = s.txLen := rfl
@[simp] theorem txEnable_txEn (v : Bool) : (txEnable v s).txEn = v := rfl
@[simp] theorem txEnable_bankBusy (v : Bool) : (txEnable v s).bankBusy = s.bankBusy := rfl
@[simp] theorem txEnable_outcome (v : Bool) : (txEnable v s).outcome = s.outcome := rfl
@[simp] theorem txEnable_now (v : Bool) : (txEnable v s).now = s.now := rfl
@[simp] theorem txEnable_rx (v : Bool) : (txEnable v s).rx = s.rx := rfl
@[simp] theorem txEnable_trace (v : Bool) : (txEnable v s).trace = s.trace ++ [.enable v] := rfl
@[simp] theorem txEnable_txReports (v : Bool) : (txEnable v s).txReports = s.txReports := rfl
@[simp] theorem txEnable_inputs (v : Bool) : (txEnable v s).inputs = s.inputs := rfl

@[simp] theorem txPushAll_cfg (bs : List Byte) : (txPushAll bs s).cfg = s.cfg := rfl
@[simp] theorem txPushAll_regs (bs : List Byte) : (txPushAll bs s).regs = s.regs := rfl
@[simp] theorem txPushAll_fsm (bs : List Byte) : (txPushAll bs s).fsm = s.fsm := rfl
@[simp] theorem txPushAll_len (bs : List Byte) : (txPushAll bs s).len = s.len := rfl
@[simp] theorem txPushAll_tMark (bs : List Byte) : (txPushAll bs s).tMark = s.tMark := rfl
@[simp] theorem txPushAll_raw (bs : List Byte) : (txPushAll bs s).raw = s.raw := rfl
@[simp] theorem txPushAll_txf (bs : List Byte) : (txPushAll bs s).txf = s.txf := rfl
@[simp] theorem txPushAll_txLen (bs : List Byte) : (txPushAll bs s).txLen = s.txLen := rfl
@[simp] theorem txPushAll_txEn (bs : List Byte) : (txPushAll bs s).txEn = s.txEn := rfl
@[simp] theorem txPushAll_bankBusy (bs : List Byte) : (txPushAll bs s).bankBusy = s.bankBusy := rfl
@[simp] theorem txPushAll_outcome (bs : List Byte) : (txPushAll bs s).outcome = s.outcome := rfl
@[simp] theorem txPushAll_now (bs : List Byte) : (txPushAll bs s).now = s.now := rfl
@[simp] theorem txPushAll_rx (bs : List Byte) : (txPushAll bs s).rx = s.rx := rfl
@[simp] theorem txPushAll_trace (bs : List Byte) : (txPushAll bs s).trace = s.trace ++ bs.map .byte := rfl
@[simp] theorem txPushAll_txReports (bs : List Byte) : (txPushAll bs s).txReports = s.txReports := rfl
@[simp] theorem txPushAll_inputs (bs : List Byte) : (txPushAll bs s).inputs = s.inputs := rfl

@[simp] theorem engineReset_cfg : (engineReset s).cfg = s.cfg := rfl
@[simp] theorem engineReset_regs : (engineReset s).regs = s.regs := rfl
@[simp] theorem engineReset_fsm : (engineReset s).fsm = .idle := rfl
@[simp] theorem engineReset_len : (engineReset s).len = 0 := rfl
@[simp] theorem engineReset_tMark : (engineReset s).tMark = s.tMark := rfl
@[simp] theorem engineReset_raw : (engineReset s).raw = s.raw := rfl
@[simp] theorem engineReset_txf : (engineReset s).txf = s.txf := rfl
@[simp] theorem engineReset_txLen : (engineReset s).txLen = s.txLen := rfl
@[simp] theorem engineReset_txEn : (engineReset s).txEn = false := rfl
@[simp] theorem engineReset_bankBusy : (engineReset s).bankBusy = false := rfl
@[simp] theorem engineReset_outcome : (engineReset s).outcome = .noActivity := rfl
@[simp] theorem engineReset_now : (engineReset s).now = s.now := rfl
@[simp] theorem engineReset_rx : (engineReset s).rx = s.rx := rfl
@[simp] theorem engineReset_trace : (engineReset s).trace = s.trace := rfl
@[simp] theorem engineReset_txReports : (engineReset s).txReports = s.txReports := rfl
@[simp] theorem engineReset_inputs : (engineReset s).inputs = s.inputs := rfl

/-! The two views of a space that depend on no other field. -/

theorem frame_congr {s t : State} (hr : t.raw = s.raw) (hl : t.len = s.len) : t.frame = s.frame := by
  simp [State.frame, hr, hl]

theorem txFrame_congr {s t : State} (hx : t.txf = s.txf) (hl : t.txLen = s.txLen) : t.txFrame = s.txFrame := by
  simp [State.txFrame, hx, hl]

@[simp] theorem txFrame_txEnable (v : Bool) : (txEnable v s).txFrame = s.txFrame := rfl
@[simp] theorem txFrame_txPushAll (bs : List Byte) : (txPushAll bs s).txFrame = s.txFrame := rfl
@[simp] theorem txFrame_report (o : ServiceOutcome) : (report o s).txFrame = s.txFrame := rfl
@[simp] theorem length_frame : s.frame.length = s.len.val := by simp [State.frame]
@[simp] theorem length_txFrame : s.txFrame.length = s.txLen.val := by simp [State.txFrame]
@[simp] theorem length_readRegs (a k : Nat) : (s.readRegs a k).length = k := by simp [State.readRegs]

end Sys2Proof.Machine
end

