-- ==== Sys2Proof/Laws/Ops.lean ====
section
/-! SUPPORT. For each shared operation, one lemma that says everything it can do. -/

namespace Sys2Proof.Machine

@[simp] theorem andThen_next (s : State) (f) : andThen (.next s) f = f s := rfl
@[simp] theorem andThen_fault (r : Fault) (f) : andThen (.fault r) f = .fault r := rfl
@[simp] theorem andThen_refused (r : Refusal) (f) : andThen (.refused r) f = .refused r := rfl

theorem andThen_eq_next {o : Host.Outcome State Fault Refusal} {f} {t : State} :
    andThen o f = .next t ↔ ∃ s, o = .next s ∧ f s = .next t := by
  cases o <;> simp

/-- BUILD of a body that fits: the stamped frame in TXF, nothing else. -/
theorem build_fits {body : List Byte} (s : State) (h : body.length + 2 < 257) :
    build body s = .next { s with txf := Cells.writeList (w := 8) s.txf 0 (stamp body),
                                  txLen := ⟨(stamp body).length, by simpa using h⟩ } := by
  simp [build, h]

theorem build_too_long {body : List Byte} (s : State) (h : ¬ body.length + 2 < 257) :
    build body s = .fault .txFrameOverflow := by
  simp [build, h]

/-- SEND, in one expression. -/
theorem send_eq (s : State) :
    send s = if s.cfg.rs485 = true ∧ s.txReports = false then .fault .transmitNeverCompletes
      else .next { s with txEn := if s.cfg.rs485 then false else s.txEn,
                          trace := s.trace ++ sendTrace s.cfg.rs485 s.txFrame } := by
  cases hr : s.cfg.rs485 <;> cases hx : s.txReports <;>
    simp [send, txWaitComplete, hr, hx, txEnable, txPushAll, State.txFrame, sendTrace]

theorem canSend_iff (s : State) : CanSend s ↔ ¬ (s.cfg.rs485 = true ∧ s.txReports = false) := by
  cases hr : s.cfg.rs485 <;> cases hx : s.txReports <;> simp [CanSend, hr, hx]

/-- A response that fits, when the transport completes sends: it is answered. -/
theorem respond_answers {body : List Byte} (o : ServiceOutcome) (s : State) (hb : body.length + 2 < 257)
    (hs : CanSend s) : ∃ t, respond body o s = .next t ∧ Answered s t (stamp body) o ∧ t.regs = s.regs ∧
      t.txf = Cells.writeList (w := 8) s.txf 0 (stamp body) := by
  have hs' := (canSend_iff s).mp hs
  let s1 : State := { s with txf := Cells.writeList (w := 8) s.txf 0 (stamp body),
                             txLen := ⟨(stamp body).length, by simpa using hb⟩ }
  have hf : s1.txFrame = stamp body := Cells.readList_writeList _ _ _
  refine ⟨report o { s1 with txEn := if s.cfg.rs485 then false else s.txEn,
                             trace := s.trace ++ sendTrace s.cfg.rs485 s1.txFrame }, ?_, ?_, rfl, rfl⟩
  · rw [respond, build_fits s hb]
    exact (congrArg (fun x => andThen x fun s2 => .next (report o s2)) (send_eq s1)).trans (by rw [if_neg hs']; rfl)
  · refine ⟨rfl, ?_, rfl, hf, fun a ha => ?_, rfl, rfl, rfl, rfl, rfl, rfl, rfl, rfl, rfl, rfl, rfl⟩
    · show s.trace ++ sendTrace s.cfg.rs485 s1.txFrame = _; rw [hf]
    · exact Cells.read_writeList_outside _ _ _ (by right; simpa using ha)

/-- A response that fits, when the transport never completes the send: the machine is stuck. -/
theorem respond_stuck {body : List Byte} (o : ServiceOutcome) (s : State) (hb : body.length + 2 < 257)
    (hr : s.cfg.rs485 = true) (hx : s.txReports = false) : respond body o s = .fault .transmitNeverCompletes := by
  rw [respond, build_fits s hb]; simp [send_eq, hr, hx]

/-- Everything a response that was sent can be. -/
theorem respond_next {body : List Byte} {o : ServiceOutcome} {s t : State} (h : respond body o s = .next t) :
    body.length + 2 < 257 ∧ CanSend s ∧ Answered s t (stamp body) o ∧ t.regs = s.regs ∧
      t.txf = Cells.writeList (w := 8) s.txf 0 (stamp body) := by
  by_cases hb : body.length + 2 < 257
  · by_cases hs : CanSend s
    · obtain ⟨t', ht', ha, hr, hx⟩ := respond_answers o s hb hs
      obtain rfl : t' = t := by rw [ht'] at h; exact Host.Outcome.next.inj h
      exact ⟨hb, hs, ha, hr, hx⟩
    · rw [canSend_iff, not_not] at hs
      rw [respond_stuck o s hb hs.1 hs.2] at h; cases h
  · rw [respond, build_too_long s hb] at h; cases h

/-- Everything a send that failed can be. -/
theorem respond_stops {body : List Byte} (o : ServiceOutcome) (s : State) (hb : body.length + 2 < 257) :
    (∃ t, respond body o s = .next t) ∨
      (s.cfg.rs485 = true ∧ s.txReports = false ∧ respond body o s = .fault .transmitNeverCompletes) := by
  by_cases hs : CanSend s
  · obtain ⟨t, ht, _⟩ := respond_answers o s hb hs; exact .inl ⟨t, ht⟩
  · rw [canSend_iff, not_not] at hs
    exact .inr ⟨hs.1, hs.2, respond_stuck o s hb hs.1 hs.2⟩

/-- The Outcome a response reports changes nothing else of its result. -/
theorem respond_relength (n : Nat) (body : List Byte) (o : ServiceOutcome) (s : State) :
    respond body (withLength n o) s = relength n (respond body o s) := by
  unfold respond relength
  cases build body s with
  | next s1 => simp only [andThen_next]; cases send s1 <;> rfl
  | fault r => rfl
  | refused r => rfl

@[simp] theorem length_excRspBody (slave fn : Byte) (code : ExcCode) : (excRspBody slave fn code).length = 3 := rfl
@[simp] theorem length_wsrRspBody (slave : Byte) (a v : Word) : (wsrRspBody slave a v).length = 6 := rfl
@[simp] theorem length_wmrRspBody (slave : Byte) (a c : Word) : (wmrRspBody slave a c).length = 6 := rfl

/-! ## The validator -/

/-- What VALIDATE has shown of a read it lets pass (R94, R96). -/
theorem validate_read_none {start count : Word} {n len : Nat} :
    validate fnRead start count n len = none ↔
      1 ≤ count.toNat ∧ count.toNat ≤ 125 ∧ start.toNat + count.toNat ≤ n := by
  have h1 : supported fnRead = true := rfl
  have h2 : ¬ (fnRead = fnWrite1) := by decide
  have h3 : ¬ (fnRead = fnWriteN) := by decide
  simp only [validate, h1, h2, h3, maxRead, Bool.not_true, Bool.false_eq_true, if_false, if_true, false_and]
  split
  · rename_i h; simp; omega
  · split
    · rename_i h' h; simp; omega
    · rename_i h' h; simp; omega

/-- What VALIDATE has shown of a single write it lets pass (R93). -/
theorem validate_write1_none {addr value : Word} {n len : Nat} :
    validate fnWrite1 addr value n len = none ↔ addr.toNat < n := by
  have h1 : supported fnWrite1 = true := rfl
  simp only [validate, h1, Bool.not_true, Bool.false_eq_true, if_false, if_true]
  split <;> simp_all

/-- What VALIDATE has shown of a multiple write it lets pass (R95, R96, R97). -/
theorem validate_writeN_none {start count : Word} {n len : Nat} :
    validate fnWriteN start count n len = none ↔
      1 ≤ count.toNat ∧ count.toNat ≤ 123 ∧ start.toNat + count.toNat ≤ n ∧ 9 + 2 * count.toNat ≤ len := by
  have h1 : supported fnWriteN = true := rfl
  have h2 : ¬ (fnWriteN = fnWrite1) := by decide
  have h3 : ¬ (fnWriteN = fnRead) := by decide
  simp only [validate, h1, h2, h3, maxWrite, Bool.not_true, Bool.false_eq_true, if_false, true_and]
  split
  · rename_i h; simp; omega
  · split
    · rename_i h' h; simp; omega
    · split
      · rename_i h'' h' h; simp; omega
      · rename_i h'' h' h; simp; omega

/-- VALIDATE reads the length of a write-multiple only (R91). -/
theorem validate_length {fn : Byte} (a b : Word) (n len len' : Nat) (h : fn ≠ fnWriteN) :
    validate fn a b n len = validate fn a b n len' := by
  simp [validate, h]

/-- VALIDATE never answers server-failure (R129). -/
theorem validate_ne_serverFailure (fn : Byte) (start p45 : Word) (n len : Nat) :
    validate fn start p45 n len ≠ some .serverFailure := by
  simp only [validate]; split_ifs <;> simp

theorem length_wordsOf : ∀ bs : List Byte, (wordsOf bs).length = bs.length / 2
  | [] => rfl
  | [_] => by simp [wordsOf]
  | _ :: _ :: t => by simp only [wordsOf, List.length_cons, length_wordsOf t]; omega

/-- A write-multiple that passed VALIDATE holds exactly `count` data words. -/
theorem length_dataWords {count : Nat} {rest : List Byte} (h : 9 + 2 * count ≤ requestLen rest) :
    (dataWords count rest).length = count := by
  simp only [requestLen] at h
  simp only [dataWords, length_wordsOf, List.length_take, List.length_drop]; omega

end Sys2Proof.Machine
end

