-- ==== Sys2Proof/Laws/Assembler.lean ====
section
/-! SUPPORT. What POLL and the outside's moves can do, said once. -/

namespace Sys2Proof.Machine

/-! ## The outside's moves -/

theorem hostWrites_canonical {n : Nat} {b : Bank} (ws : List (Nat × Word)) (h : Cells.canonical b = true) :
    Cells.canonical (hostWrites n b ws) = true := by
  induction ws generalizing b with
  | nil => exact h
  | cons p t ih =>
    obtain ⟨i, v⟩ := p
    by_cases hi : i < n
    · simpa [hostWrites, hi] using ih (Cells.canonical_write i v h)
    · simpa [hostWrites, hi] using ih h

theorem hostWrites_below {n : Nat} {b : Bank} (ws : List (Nat × Word)) (h : Cells.below b n = true) :
    Cells.below (hostWrites n b ws) n = true := by
  induction ws generalizing b with
  | nil => exact h
  | cons p t ih =>
    obtain ⟨i, v⟩ := p
    by_cases hi : i < n
    · simpa [hostWrites, hi] using ih (Cells.below_write v h hi)
    · simpa [hostWrites, hi] using ih h

/-- A register the host does not write, and every index outside the bank, reads as before (R40). -/
theorem read_hostWrites_other {n : Nat} (ws : List (Nat × Word)) (b : Bank) {a : Nat}
    (h : (∀ q ∈ ws, q.1 ≠ a) ∨ n ≤ a) : Cells.read (hostWrites n b ws) a = Cells.read b a := by
  induction ws generalizing b with
  | nil => rfl
  | cons q t ih =>
    obtain ⟨i, v⟩ := q
    rw [hostWrites, ih _ (h.imp (fun h q hq => h q (by simp [hq])) id)]
    split
    · rename_i hi
      exact Cells.read_write_other _ _ (h.elim (fun h e => h (i, v) (by simp) e.symm) (fun h => by omega))
    · rfl

theorem hostWrites_append (n : Nat) (b : Bank) (x y : List (Nat × Word)) :
    hostWrites n b (x ++ y) = hostWrites n (hostWrites n b x) y := by
  induction x generalizing b with
  | nil => rfl
  | cons q t ih => obtain ⟨i, v⟩ := q; simp [hostWrites, ih]

/-- A register reads as the last of the host's writes to it (R40, R41). -/
theorem read_hostWrites_last {n : Nat} (b : Bank) (x y : List (Nat × Word)) {a : Nat} (v : Word) (ha : a < n)
    (h : ∀ q ∈ y, q.1 ≠ a) : Cells.read (hostWrites n b (x ++ (a, v) :: y)) a = v := by
  rw [hostWrites_append, hostWrites, read_hostWrites_other _ _ (.inl h), if_pos ha]; exact Cells.read_write_same _ _ _

section
variable (s : State)

/-- The outside moves nothing of the engine's own state: neither the assembler, nor the buffers, nor the signals. -/
theorem takeInputs_cases : takeInputs s = s ∨ ∃ p rest, s.inputs = p :: rest ∧
    takeInputs s = { s with inputs := rest, now := s.now + p.ticks, rx := s.rx ++ p.arrivals, txReports := p.txReports,
                            regs := hostWrites s.cfg.n s.regs p.hostWrites } := by
  unfold takeInputs
  split
  · exact .inl rfl
  · rename_i p rest h; exact .inr ⟨p, rest, h, rfl⟩

@[simp] theorem takeInputs_cfg : (takeInputs s).cfg = s.cfg := by unfold takeInputs; split <;> rfl
@[simp] theorem takeInputs_fsm : (takeInputs s).fsm = s.fsm := by unfold takeInputs; split <;> rfl
@[simp] theorem takeInputs_len : (takeInputs s).len = s.len := by unfold takeInputs; split <;> rfl
@[simp] theorem takeInputs_tMark : (takeInputs s).tMark = s.tMark := by unfold takeInputs; split <;> rfl
@[simp] theorem takeInputs_raw : (takeInputs s).raw = s.raw := by unfold takeInputs; split <;> rfl
@[simp] theorem takeInputs_txf : (takeInputs s).txf = s.txf := by unfold takeInputs; split <;> rfl
@[simp] theorem takeInputs_txLen : (takeInputs s).txLen = s.txLen := by unfold takeInputs; split <;> rfl
@[simp] theorem takeInputs_txEn : (takeInputs s).txEn = s.txEn := by unfold takeInputs; split <;> rfl
@[simp] theorem takeInputs_bankBusy : (takeInputs s).bankBusy = s.bankBusy := by unfold takeInputs; split <;> rfl
@[simp] theorem takeInputs_outcome : (takeInputs s).outcome = s.outcome := by unfold takeInputs; split <;> rfl
@[simp] theorem takeInputs_trace : (takeInputs s).trace = s.trace := by unfold takeInputs; split <;> rfl

theorem le_takeInputs_now : s.now ≤ (takeInputs s).now := by
  unfold takeInputs; split
  · exact Nat.le_refl _
  · exact Nat.le_add_right _ _

end

/-! ## POLL -/

/-- Everything draining can do: the bytes are stored and the frame is accumulating, or all is discarded. -/
theorem drain_cases (base : Nat) (s : State) :
    (∃ h : base + s.rx.length < 257, drain base s = (.none, { s with
        raw := Cells.writeList (w := 8) s.raw base s.rx, len := ⟨base + s.rx.length, h⟩, tMark := s.now,
        fsm := .accumulating, rx := [] })) ∨
      (256 < base + s.rx.length ∧ drain base s = (.overflow, { s with rx := [], len := 0, fsm := .idle })) := by
  by_cases h : base + s.rx.length < 257
  · exact .inl ⟨h, by simp [drain, h]⟩
  · exact .inr ⟨by omega, by simp [drain, h]⟩

/-- Everything POLL can do (R82). -/
theorem pollAt_cases (e : Nat) (s : State) :
    (pollAt e s = (.none, s) ∧ s.rx = [] ∧ s.fsm ≠ .settled) ∨
    (pollAt e s = settle s ∧ (s.fsm = .settled ∨ (s.fsm = .accumulating ∧ s.rx = [] ∧ s.cfg.silence ≤ e))) ∨
    (s.rx ≠ [] ∧ ∃ base, (s.fsm = .idle ∧ base = 0 ∨ s.fsm = .accumulating ∧ base = s.len.val) ∧
      pollAt e s = drain base s) := by
  unfold pollAt
  cases hf : s.fsm with
  | idle =>
    by_cases hr : s.rx = []
    · simp [hr]
    · simp [hr]
  | accumulating =>
    by_cases hr : s.rx = []
    · by_cases he : e < s.cfg.silence
      · simp [hr, he]
      · simp [hr, he]; omega
    · simp [hr]
  | settled => simp

/-- POLL of a frame whose silence has elapsed settles it (R77). -/
theorem poll_settles {s : State} (hf : s.fsm = .accumulating) (hrx : s.rx = []) (hs : s.cfg.silence ≤ s.now - s.tMark) :
    poll s = settle s := by
  unfold poll pollAt elapsed; rw [hf]; simp only [hrx, if_true]; rw [if_neg (by omega)]

@[simp] theorem settle_fst (s : State) : (settle s).1 = .frame := rfl
@[simp] theorem settle_snd (s : State) : (settle s).2 = { s with fsm := .settled, bankBusy := true } := rfl

/-- POLL answers FRAME only by settling (R77, R79). -/
theorem poll_frame {s s1 : State} (h : poll s = (.frame, s1)) : s1 = { s with fsm := .settled, bankBusy := true } := by
  unfold poll at h
  rcases pollAt_cases (elapsed s) s with ⟨h1, _⟩ | ⟨h1, _⟩ | ⟨_, base, _, h1⟩ <;> rw [h1] at h
  · simp at h
  · exact (Prod.mk.inj h).2.symm
  · rcases drain_cases base s with ⟨_, h2⟩ | ⟨_, h2⟩ <;> rw [h2] at h <;> simp at h

/-- A poll without a frame touches neither the bank, nor the transmit side, nor the configuration (R81). -/
theorem poll_no_frame {s s1 : State} {r : PollResult} (hr : r ≠ .frame) (h : poll s = (r, s1)) :
    s1.trace = s.trace ∧ s1.txEn = s.txEn ∧ s1.txf = s.txf ∧ s1.txLen = s.txLen ∧ s1.regs = s.regs ∧ s1.cfg = s.cfg ∧
      s1.now = s.now ∧ s1.bankBusy = s.bankBusy := by
  unfold poll at h
  rcases pollAt_cases (elapsed s) s with ⟨h1, _⟩ | ⟨h1, _⟩ | ⟨_, base, _, h1⟩ <;> rw [h1] at h
  · obtain ⟨-, rfl⟩ := Prod.mk.inj h; simp
  · exact absurd (Prod.mk.inj h).1.symm hr
  · rcases drain_cases base s with ⟨_, h2⟩ | ⟨_, h2⟩ <;> rw [h2] at h <;> obtain ⟨-, rfl⟩ := Prod.mk.inj h <;> simp

end Sys2Proof.Machine
end

