-- ==== Sys2Proof/Laws/Decode.lean ====
section
/-! SUPPORT. What PARSE can accept, said once: the three forms with fixed fields, and ILLFN. -/

namespace Sys2Proof.Machine

theorem supported_iff {fn : Byte} : supported fn = true ↔ fn = fnRead ∨ fn = fnWrite1 ∨ fn = fnWriteN := by
  simp [supported, or_assoc]

/-- Every body PARSE accepts, with the request it stands for. -/
theorem decodeRequestBody_ok {slave : Byte} {b : List Byte} {i : Instr} (h : decodeRequestBody slave b = .ok i) :
    (∃ b2 b3 b4 b5 after, b = slave :: fnRead :: b2 :: b3 :: b4 :: b5 :: after ∧
      i = .rhr slave (be16 b2 b3) (be16 b4 b5) after) ∨
    (∃ b2 b3 b4 b5 after, b = slave :: fnWrite1 :: b2 :: b3 :: b4 :: b5 :: after ∧
      i = .wsr slave (be16 b2 b3) (be16 b4 b5) after) ∨
    (∃ b2 b3 b4 b5 after, b = slave :: fnWriteN :: b2 :: b3 :: b4 :: b5 :: after ∧
      i = .wmr slave (be16 b2 b3) (be16 b4 b5) after) ∨
    (∃ fn payload, b = slave :: fn :: payload ∧ supported fn = false ∧ i = .illfn slave fn payload) := by
  match b with
  | [] => simp [decodeRequestBody] at h
  | [_] => simp [decodeRequestBody] at h
  | sl :: fn :: payload =>
    by_cases hsl : sl = slave
    · subst hsl
      by_cases hf : supported fn = true
      · match payload with
        | b2 :: b3 :: b4 :: b5 :: after =>
          rcases supported_iff.mp hf with rfl | rfl | rfl
          · exact .inl ⟨b2, b3, b4, b5, after, rfl, by simpa [decodeRequestBody, hf] using h.symm⟩
          · exact .inr (.inl ⟨b2, b3, b4, b5, after, rfl,
              by simpa [decodeRequestBody, hf, show ¬ fnWrite1 = fnRead by decide] using h.symm⟩)
          · exact .inr (.inr (.inl ⟨b2, b3, b4, b5, after, rfl,
              by simpa [decodeRequestBody, hf, show ¬ fnWriteN = fnRead by decide,
                show ¬ fnWriteN = fnWrite1 by decide] using h.symm⟩))
        | [] => simp [decodeRequestBody, hf] at h
        | [_] => simp [decodeRequestBody, hf] at h
        | [_, _] => simp [decodeRequestBody, hf] at h
        | [_, _, _] => simp [decodeRequestBody, hf] at h
      · exact .inr (.inr (.inr ⟨fn, payload, rfl, by simpa using hf, by simpa [decodeRequestBody, hf] using h.symm⟩))
    · simp [decodeRequestBody, hsl] at h

/-- A frame PARSE accepts passed the length and CRC checks, and its body is one of the forms above. -/
theorem decodeRequest_ok {slave : Byte} {f : List Byte} {i : Instr} (h : decodeRequest slave f = .ok i) :
    4 ≤ f.length ∧ crcCheck f = true ∧ decodeRequestBody slave (f.take (f.length - 2)) = .ok i := by
  unfold decodeRequest at h
  by_cases h4 : f.length < 4
  · simp [h4] at h
  · by_cases hc : crcCheck f = false
    · simp [h4, hc] at h
    · rw [if_neg h4, if_neg hc] at h; exact ⟨by omega, by simpa using hc, h⟩

/-- PARSE answers requests only, and only those that carry the slave address it was given. -/
theorem decodeRequest_isRequest {slave : Byte} {f : List Byte} {i : Instr} (h : decodeRequest slave f = .ok i) :
    i.isRequest = true ∧ i.slave = slave := by
  rcases decodeRequestBody_ok (decodeRequest_ok h).2.2 with
    ⟨_, _, _, _, _, _, rfl⟩ | ⟨_, _, _, _, _, _, rfl⟩ | ⟨_, _, _, _, _, _, rfl⟩ | ⟨_, _, _, _, rfl⟩ <;> exact ⟨rfl, rfl⟩

end Sys2Proof.Machine
end

