-- ==== Sys2Proof/Laws/PerInstr.lean ====
section
/-! SUPPORT. Statements made for all instructions, one lemma per constructor of `Instr`. -/

namespace Sys2Proof.Laws

open Machine

/-! ## The length of an encoded frame fits the buffers (`30_encoding.md` R46, R59) -/

/-- A well-formed frame has at least 4 bytes, so that address, function and CRC are distinct bytes, and at most
`MAXFRAME`. -/
def EncodedLength.Statement (i : Instr) : Prop :=
  i.wellFormed = true → 4 ≤ (encode i).length ∧ (encode i).length ≤ maxFrame

theorem EncodedLength.rhr (slave : Byte) (start count : Word) (surplus : List Byte) :
    EncodedLength.Statement (.rhr slave start count surplus) := fun h => by
  replace h : requestLen _ ≤ maxFrame := of_decide_eq_true h
  simp only [requestLen] at h
  simp only [encode, encodeBody, length_stamp, length_twoFieldBody]; omega

theorem EncodedLength.wsr (slave : Byte) (addr value : Word) (surplus : List Byte) :
    EncodedLength.Statement (.wsr slave addr value surplus) := fun h => by
  replace h : requestLen _ ≤ maxFrame := of_decide_eq_true h
  simp only [requestLen] at h
  simp only [encode, encodeBody, length_stamp, length_twoFieldBody]; omega

theorem EncodedLength.wmr (slave : Byte) (start count : Word) (rest : List Byte) :
    EncodedLength.Statement (.wmr slave start count rest) := fun h => by
  replace h : requestLen _ ≤ maxFrame := of_decide_eq_true h
  simp only [requestLen] at h
  simp only [encode, encodeBody, length_stamp, length_twoFieldBody]; omega

theorem EncodedLength.illfn (slave fn : Byte) (payload : List Byte) :
    EncodedLength.Statement (.illfn slave fn payload) := fun h => by
  simp only [Instr.wellFormed, Bool.and_eq_true, decide_eq_true_eq] at h
  simp only [encode, encodeBody, length_stamp, List.length_cons]; omega

theorem EncodedLength.rhrRsp (slave : Byte) (values : List Word) :
    EncodedLength.Statement (.rhrRsp slave values) := fun h => by
  simp only [Instr.wellFormed, Bool.and_eq_true] at h
  have h2 : values.length ≤ maxRead := of_decide_eq_true h.2
  simp only [maxRead] at h2
  simp only [encode, encodeBody, length_stamp, length_rhrRspBody, maxFrame]; omega

theorem EncodedLength.wsrRsp (slave : Byte) (addr value : Word) :
    EncodedLength.Statement (.wsrRsp slave addr value) := fun _ => by
  simp [encode, encodeBody, wsrRspBody, length_twoFieldBody, maxFrame]

theorem EncodedLength.wmrRsp (slave : Byte) (start count : Word) :
    EncodedLength.Statement (.wmrRsp slave start count) := fun _ => by
  simp [encode, encodeBody, wmrRspBody, length_twoFieldBody, maxFrame]

theorem EncodedLength.excRsp (slave fn : Byte) (code : ExcCode) :
    EncodedLength.Statement (.excRsp slave fn code) := fun _ => by
  simp [encode, encodeBody, excRspBody, maxFrame]

end Sys2Proof.Laws
end

