-- ==== Sys2Proof/Laws/Service.lean ====
section
/-! SUPPORT. What a request, a cycle and a step can do: one inversion lemma each, from which every statement about all
steps follows. -/

namespace Sys2Proof.Machine

/-- What became of the bank and the buffer when a frame was answered. -/
def AnsweredWith (s t : State) (body : List Byte) (o : ServiceOutcome) : Prop :=
  CanSend s ∧ Answered s t (stamp body) o ∧ t.txf = Cells.writeList (w := 8) s.txf 0 (stamp body)

/-- Everything the meaning of a request can do: drop a foreign frame, refuse with an exception and touch no register,
or answer after reading, or after writing inside the bank. -/
inductive RequestResult (s t : State) : Prop where
  | dropped (h : t = dropFrame .foreign s)
  | refused (fn : Byte) (code : ExcCode) (hc : code ≠ .serverFailure)
      (h : AnsweredWith s t (excRspBody s.cfg.slave fn code) (.exception code)) (hr : t.regs = s.regs)
  | read (values : List Word) (n : Nat) (h1 : 1 ≤ values.length) (h2 : values.length ≤ 125)
      (h : AnsweredWith s t (rhrRspBody s.cfg.slave values) (.frameProcessed n)) (hr : t.regs = s.regs)
  | wrote (fn : Byte) (a b : Word) (n : Nat) (ws : List Word) (hw : a.toNat + ws.length ≤ s.cfg.n)
      (h : AnsweredWith s t (twoFieldBody s.cfg.slave fn a b []) (.frameProcessed n))
      (hr : t.regs = Cells.writeList s.regs a.toNat ws)

theorem raiseException_next {fn : Byte} {code : ExcCode} {s t : State} (hc : code ≠ .serverFailure)
    (h : raiseException fn code s = .next t) : RequestResult s t := by
  obtain ⟨_, hs, ha, hr, hx⟩ := respond_next h
  exact .refused fn code hc ⟨hs, ha, hx⟩ hr

theorem validate_some_ne {fn : Byte} {a b : Word} {n len : Nat} {code : ExcCode}
    (h : validate fn a b n len = some code) : code ≠ .serverFailure := by
  rintro rfl; exact validate_ne_serverFailure _ _ _ _ _ h

/-- The bank is the only thing a register write changes, so an answer after it is an answer of the state before. -/
theorem answeredWith_writeRegs {s t : State} {a : Nat} {ws : List Word} {body : List Byte} {o : ServiceOutcome}
    (h : AnsweredWith (s.writeRegs a ws) t body o) : AnsweredWith s t body o := h

theorem exec_request_next {i : Instr} (hi : i.isRequest = true) {s t : State} (h : exec i s = .next t) :
    RequestResult s t := by
  cases i with
  | rhr sl start count surplus =>
    simp only [exec, execRhr, addressed] at h
    split at h
    · split at h
      · rename_i hv; exact raiseException_next (validate_some_ne hv) h
      · rename_i hv
        obtain ⟨h1, h2, _⟩ := validate_read_none.mp hv
        obtain ⟨_, hs, ha, hr, hx⟩ := respond_next h
        exact .read _ _ (by simpa using h1) (by simpa using h2) ⟨hs, ha, hx⟩ hr
    · exact .dropped (Host.Outcome.next.inj h).symm
  | wsr sl addr value surplus =>
    simp only [exec, execWsr, addressed] at h
    split at h
    · split at h
      · rename_i hv; exact raiseException_next (validate_some_ne hv) h
      · rename_i hv
        have hlt := validate_write1_none.mp hv
        obtain ⟨_, hs, ha, hr, hx⟩ := respond_next h
        exact .wrote fnWrite1 addr value _ [value] (by simpa using hlt) ⟨hs, ha, hx⟩ hr
    · exact .dropped (Host.Outcome.next.inj h).symm
  | wmr sl start count rest =>
    simp only [exec, execWmr, addressed] at h
    split at h
    · split at h
      · rename_i hv; exact raiseException_next (validate_some_ne hv) h
      · rename_i hv
        obtain ⟨_, _, hn, hl⟩ := validate_writeN_none.mp hv
        obtain ⟨_, hs, ha, hr, hx⟩ := respond_next h
        exact .wrote fnWriteN start count _ _ (by rw [length_dataWords hl]; exact hn) ⟨hs, ha, hx⟩ hr
    · exact .dropped (Host.Outcome.next.inj h).symm
  | illfn sl fn payload =>
    simp only [exec, execIllfn, addressed] at h
    split at h
    · exact raiseException_next (by simp) h
    · exact .dropped (Host.Outcome.next.inj h).symm
  | rhrRsp => simp [Instr.isRequest] at hi
  | wsrRsp => simp [Instr.isRequest] at hi
  | wmrRsp => simp [Instr.isRequest] at hi
  | excRsp => simp [Instr.isRequest] at hi

/-- The shape of every request's result: dropped with nothing changed, or one frame of 5 to 255 bytes answered. -/
theorem RequestResult.shape {s t : State} (h : RequestResult s t) :
    t = dropFrame .foreign s ∨
      ∃ body, CanSend s ∧ 3 ≤ body.length ∧ body.length ≤ 253 ∧ body.getD 0 0#8 = s.cfg.slave ∧
        Answered s t (stamp body) t.outcome ∧
        ((∃ n, t.outcome = .frameProcessed n) ∨ ∃ c, c ≠ .serverFailure ∧ t.outcome = .exception c) := by
  cases h with
  | dropped h => exact .inl h
  | refused fn code hc h hr =>
    exact .inr ⟨excRspBody s.cfg.slave fn code, h.1, by simp, by simp, rfl, by rw [h.2.1.1]; exact h.2.1,
      .inr ⟨code, hc, h.2.1.1⟩⟩
  | read values n h1 h2 h hr =>
    exact .inr ⟨rhrRspBody s.cfg.slave values, h.1, by rw [length_rhrRspBody]; omega, by rw [length_rhrRspBody]; omega, rfl,
      by rw [h.2.1.1]; exact h.2.1, .inl ⟨n, h.2.1.1⟩⟩
  | wrote fn a b n ws hw h hr =>
    exact .inr ⟨twoFieldBody s.cfg.slave fn a b [], h.1, by rw [length_twoFieldBody]; omega,
      by rw [length_twoFieldBody]; simp, rfl, by rw [h.2.1.1]; exact h.2.1, .inl ⟨n, h.2.1.1⟩⟩

/-- Everything PROCESS can do (R118). -/
theorem process_next {s t : State} (h : process s = .next t) :
    (∃ r, decodeRequest s.cfg.slave s.frame = .error r ∧ t = dropFrame r s) ∨
      ∃ i, decodeRequest s.cfg.slave s.frame = .ok i ∧ exec i s = .next t ∧ RequestResult s t := by
  unfold process at h
  split at h
  · rename_i r hd; exact .inl ⟨r, hd, (Host.Outcome.next.inj h).symm⟩
  · rename_i i hd
    exact .inr ⟨i, hd, h, exec_request_next (decodeRequest_isRequest hd).1 h⟩

/-- A cycle on a frame that parses is the meaning of its request, then the end of the cycle (R118, R123). -/
theorem cycle_ok {s : State} {i : Instr} (h : decodeRequest s.cfg.slave s.frame = .ok i) :
    cycle s = andThen (exec i s) fun t => .next (endCycle t) := by
  unfold cycle process; rw [h]

/-- A cycle on a frame that does not parse is the drop, then the end of the cycle (R118, R130). -/
theorem cycle_error {s : State} {r : DropReason} (h : decodeRequest s.cfg.slave s.frame = .error r) :
    cycle s = .next (endCycle (dropFrame r s)) := by
  unfold cycle process; rw [h]; rfl

/-- A service step that settles a frame is the cycle on it in SETTLED with the bank held (R27, R117). -/
theorem service_settles {s : State} (h : poll s = settle s) :
    service s = cycle { s with fsm := .settled, bankBusy := true } := by
  unfold service; rw [h]; rfl

/-- One step of a run. -/
theorem run_succ (k : Nat) {s t : State} (h : step s = .next t) :
    Host.Core.run Sys2Proof.core (k + 1) s = Host.Core.run Sys2Proof.core k t := by
  have h' : Sys2Proof.core.step s = .next t := h
  simp only [Host.Core.run, h']

/-- Everything a step can do (R117, R119): nothing ready, an overflow, or one cycle on a settled frame. -/
theorem step_cases {s t : State} (h : step s = .next t) :
    (∃ s1, poll (takeInputs s) = (.none, s1) ∧ t = report .noActivity s1) ∨
    (∃ s1, poll (takeInputs s) = (.overflow, s1) ∧ t = report (.noReply .overflow) s1) ∨
    (∃ s1 s2, poll (takeInputs s) = (.frame, s1) ∧ process s1 = .next s2 ∧ t = endCycle s2) := by
  unfold step service at h
  split at h
  · rename_i s1 hp; exact .inl ⟨s1, hp, (Host.Outcome.next.inj h).symm⟩
  · rename_i s1 hp; exact .inr (.inl ⟨s1, hp, (Host.Outcome.next.inj h).symm⟩)
  · rename_i s1 hp
    obtain ⟨s2, h2, h3⟩ := andThen_eq_next.mp h
    exact .inr (.inr ⟨s1, s2, hp, h2, (Host.Outcome.next.inj h3).symm⟩)

end Sys2Proof.Machine
end

