-- ==== Sys2Proof/Tests/Slice0.lean ====
section
/-! SUPPORT. The model's own tests. Expected values come from the spec: the vectors `S`, `V` and programs `P` of
`95_test_vectors.md`, or the layouts of `30_encoding.md`. The theorems named `witness_…` show states and operands that
meet the hypotheses of the obligation of that name. -/

namespace Sys2Proof.Tests

open Machine

-- One thread: the sandbox limits how many a compile may start.
set_option Elab.async false

/-- The answer is a next state and the check holds of it. -/
def nextWith (o : Host.Outcome State Fault Refusal) (p : State → Bool) : Bool :=
  match o with
  | .next t => p t
  | .fault _ => false
  | .refused _ => false

theorem exists_next {o : Host.Outcome State Fault Refusal} {p : State → Bool} (h : nextWith o p = true) :
    ∃ t, o = .next t ∧ p t = true := by
  cases o with
  | next t => exact ⟨t, rfl, h⟩
  | fault _ => cases h
  | refused _ => cases h

/-- The bank `B10` of the test vectors: 11, 22, …, 110. -/
def bank10 : Bank :=
  [(0, 11#16), (1, 22#16), (2, 33#16), (3, 44#16), (4, 55#16), (5, 66#16), (6, 77#16), (7, 88#16), (8, 99#16),
   (9, 110#16)]

/-- Slave 1, ten registers, the bank `B10`, no RS-485. -/
def s10 : State := State.resetWith Config.atReset bank10

/-- The same with RS-485 sequencing. -/
def s485 : State := State.resetWith { Config.atReset with rs485 := true } bank10

/-- The frame is complete in RawFrame and the next poll settles it: the step that follows answers it. -/
def answers (f : List Byte) (s : State) (o : ServiceOutcome) (tx : List Byte) (bank : Bank) : Bool :=
  nextWith (step (withCandidate f s)) fun t =>
    t.outcome == o && t.trace == sendTrace s.cfg.rs485 tx && t.regs == bank && t.fsm == .idle && t.len.val == 0

/-- The frame is dropped: nothing is sent and the bank is as before. -/
def drops (f : List Byte) (r : DropReason) : Bool :=
  nextWith (step (withCandidate f s10)) fun t =>
    t.outcome == .noReply r && t.trace == [] && t.regs == bank10 && t.fsm == .idle

/-- Request S1. -/
def fS1 : List Byte := [0x01#8, 0x03#8, 0x00#8, 0x00#8, 0x00#8, 0x02#8, 0xC4#8, 0x0B#8]
/-- Request V40. -/
def fV40 : List Byte := [0x01#8, 0x06#8, 0x00#8, 0x05#8, 0x12#8, 0x34#8, 0x94#8, 0xBC#8]
/-- Request V50. -/
def fV50 : List Byte := [0x01#8, 0x10#8, 0x00#8, 0x02#8, 0x00#8, 0x03#8, 0x06#8, 0xAA#8, 0xBB#8, 0x00#8, 0x01#8,
  0x80#8, 0x00#8, 0x8B#8, 0x5B#8]
/-- Request V21. -/
def fV21 : List Byte := [0x01#8, 0x07#8, 0x41#8, 0xE2#8]

/-! ## WellFormed: an ill-formed term for each check -/

theorem test_wf_rhr_too_long : (Instr.rhr 0x01#8 0#16 1#16 (List.replicate 249 0#8)).wellFormed = false ∧
    (Instr.rhr 0x01#8 0#16 1#16 (List.replicate 248 0#8)).wellFormed = true := by decide +kernel
theorem test_wf_wsr_too_long : (Instr.wsr 0x01#8 0#16 1#16 (List.replicate 249 0#8)).wellFormed = false := by
  decide +kernel
theorem test_wf_wmr_too_long : (Instr.wmr 0x01#8 0#16 1#16 (List.replicate 249 0#8)).wellFormed = false ∧
    (Instr.wmr 0x01#8 0#16 1#16 []).wellFormed = true := by decide +kernel
theorem test_wf_illfn_supported : (Instr.illfn 0x01#8 0x10#8 []).wellFormed = false := by decide
theorem test_wf_illfn_too_long : (Instr.illfn 0x01#8 0x07#8 (List.replicate 253 0#8)).wellFormed = false := by
  decide +kernel
theorem test_wf_rhrRsp_no_register : (Instr.rhrRsp 0x01#8 []).wellFormed = false := by decide
theorem test_wf_rhrRsp_126_registers : (Instr.rhrRsp 0x01#8 (List.replicate 126 0#16)).wellFormed = false ∧
    (Instr.rhrRsp 0x01#8 (List.replicate 125 0#16)).wellFormed = true := by decide +kernel
theorem test_wf_excRsp_bit7 : (Instr.excRsp 0x01#8 0x03#8 .illegalFunction).wellFormed = false := by decide

/-! ## Decoding: every constructor from a frame written out from the spec's encoding -/

theorem test_decode_rhr : decodeRequest 0x01#8 fS1 = .ok (.rhr 0x01#8 0#16 2#16 []) := by decide +kernel
theorem test_decode_wsr : decodeRequest 0x01#8 fV40 = .ok (.wsr 0x01#8 5#16 0x1234#16 []) := by decide +kernel
theorem test_decode_wmr : decodeRequest 0x01#8 fV50
    = .ok (.wmr 0x01#8 2#16 3#16 [0x06#8, 0xAA#8, 0xBB#8, 0x00#8, 0x01#8, 0x80#8, 0x00#8]) := by decide +kernel
/-- R54: the data words of V50, and the first three words where more bytes follow (R98 b). -/
theorem test_data_words :
    dataWords 3 [0x06#8, 0xAA#8, 0xBB#8, 0x00#8, 0x01#8, 0x80#8, 0x00#8] = [0xAABB#16, 0x0001#16, 0x8000#16] ∧
    dataWords 1 [0x02#8, 0xBE#8, 0xEF#8, 0x99#8, 0x99#8] = [0xBEEF#16] := by decide +kernel
theorem test_decode_illfn : decodeRequest 0x01#8 fV21 = .ok (.illfn 0x01#8 0x07#8 []) := by decide +kernel
theorem test_decode_rhrRsp : decodeResponse [0x01#8, 0x03#8, 0x04#8, 0x00#8, 0x0B#8, 0x00#8, 0x16#8, 0x0A#8, 0x3F#8]
    = .ok (.rhrRsp 0x01#8 [11#16, 22#16]) := by decide +kernel
theorem test_decode_wsrRsp : decodeResponse fV40 = .ok (.wsrRsp 0x01#8 5#16 0x1234#16) := by decide +kernel
theorem test_decode_wmrRsp : decodeResponse [0x01#8, 0x10#8, 0x00#8, 0x02#8, 0x00#8, 0x03#8, 0x21#8, 0xC8#8]
    = .ok (.wmrRsp 0x01#8 2#16 3#16) := by decide +kernel
theorem test_decode_excRsp : decodeResponse [0x01#8, 0x83#8, 0x02#8, 0xC0#8, 0xF1#8]
    = .ok (.excRsp 0x01#8 0x83#8 .illegalDataAddress) := by decide +kernel
/-- The table word of a row is its function byte alone (R55), so that operands are the zeros after it. -/
theorem test_decode_table_words :
    decodeTableWord 8 0x03 = some (.rhr 0x01#8 0#16 0#16 []) ∧ decodeTableWord 8 0x06 = some (.wsr 0x01#8 0#16 0#16 []) ∧
    decodeTableWord 8 0x10 = some (.wmr 0x01#8 0#16 0#16 [0x00#8]) ∧
    decodeTableWord 8 0x83 = some (.illfn 0x01#8 0x83#8 [0#8, 0#8, 0#8, 0#8]) := by decide +kernel
theorem test_encode_wmr : encode (.wmr 0x01#8 2#16 3#16 (nominalRest [0xAABB#16, 0x0001#16, 0x8000#16])) = fV50 := by
  decide +kernel

/-! ## CRC Engine (V5 to V13) -/

theorem test_crc16_check_value : crc16 [0x31#8, 0x32#8, 0x33#8, 0x34#8, 0x35#8, 0x36#8, 0x37#8, 0x38#8, 0x39#8]
    = 0x4B37#16 := by decide +kernel
theorem test_crc16_order : crc16 [0x01#8, 0x03#8] = 0x2140#16 ∧ crc16 [0x03#8, 0x01#8] = 0x80C0#16 := by decide +kernel
theorem test_crc16_empty : crc16 [] = 0xFFFF#16 := by decide
theorem test_crcByte : crcByte 0xFFFF#16 0x01#8 = 0x807E#16 ∧ crcByte 0x0000#16 0x80#8 = 0xA001#16 ∧
    crcByte 0x8000#16 0x00#8 = 0x0080#16 := by decide +kernel
theorem test_crcShift : crcShift 0x0001#16 = 0xA001#16 ∧ crcShift 0xFFFF#16 = 0xDFFE#16 ∧
    crcShift 0x8000#16 = 0x4000#16 := by decide +kernel
theorem test_crcCheck_byte_order : crcCheck fS1 = true ∧
    crcCheck [0x01#8, 0x03#8, 0x00#8, 0x00#8, 0x00#8, 0x02#8, 0x0B#8, 0xC4#8] = false := by decide +kernel

/-! ## Requests: at most two a row, each one step -/

/-- V30: the last register of the bank. -/
theorem test_rhr_last_register : answers [0x01#8, 0x03#8, 0x00#8, 0x09#8, 0x00#8, 0x01#8, 0x54#8, 0x08#8] s10
    (.frameProcessed 8) [0x01#8, 0x03#8, 0x02#8, 0x00#8, 0x6E#8, 0x39#8, 0xA8#8] bank10 = true := by decide +kernel
/-- V35: start 0xFFFF, count 1; the sum does not wrap. -/
theorem test_rhr_no_wrap : answers [0x01#8, 0x03#8, 0xFF#8, 0xFF#8, 0x00#8, 0x01#8, 0x84#8, 0x2E#8] s10
    (.exception .illegalDataAddress) [0x01#8, 0x83#8, 0x02#8, 0xC0#8, 0xF1#8] bank10 = true := by decide +kernel
/-- V40. -/
theorem test_wsr_stores : answers fV40 s10 (.frameProcessed 8) fV40 (Cells.write bank10 5 0x1234#16) = true := by
  decide +kernel
/-- V42: the first address outside the bank. -/
theorem test_wsr_outside : answers [0x01#8, 0x06#8, 0x00#8, 0x0A#8, 0x00#8, 0x01#8, 0x68#8, 0x08#8] s10
    (.exception .illegalDataAddress) [0x01#8, 0x86#8, 0x02#8, 0xC3#8, 0xA1#8] bank10 = true := by decide +kernel
/-- V50, with RS-485 sequencing around the same bytes. -/
theorem test_wmr_stores : answers fV50 s485 (.frameProcessed 15)
    [0x01#8, 0x10#8, 0x00#8, 0x02#8, 0x00#8, 0x03#8, 0x21#8, 0xC8#8]
    [(0, 11#16), (1, 22#16), (2, 0xAABB#16), (3, 0x0001#16), (4, 0x8000#16), (5, 66#16), (6, 77#16), (7, 88#16),
     (8, 99#16), (9, 110#16)] = true := by decide +kernel
/-- V51: three registers announced, two data words in the frame. -/
theorem test_wmr_truncated : answers [0x01#8, 0x10#8, 0x00#8, 0x02#8, 0x00#8, 0x03#8, 0x06#8, 0xAA#8, 0xBB#8, 0x00#8,
    0x01#8, 0x9A#8, 0x5A#8] s10 (.exception .illegalDataValue) [0x01#8, 0x90#8, 0x03#8, 0x0C#8, 0x01#8] bank10 = true := by
  decide +kernel
/-- V22: a function byte that has bit 7 set is answered with itself. -/
theorem test_illfn_bit7 : answers [0x01#8, 0x83#8, 0x00#8, 0x00#8, 0xF0#8, 0x30#8] s10 (.exception .illegalFunction)
    [0x01#8, 0x83#8, 0x01#8, 0x80#8, 0xF0#8] bank10 = true := by decide +kernel
/-- V23: seven bytes are enough for an unsupported function. -/
theorem test_illfn_seven_bytes : answers [0x01#8, 0x2B#8, 0x0E#8, 0x01#8, 0x00#8, 0x70#8, 0x77#8] s10
    (.exception .illegalFunction) [0x01#8, 0xAB#8, 0x01#8, 0x9E#8, 0xF0#8] bank10 = true := by decide +kernel

/-! ## Responses: BUILD -/

/-- The response of S1. -/
theorem test_build_rhrRsp : nextWith (exec (.rhrRsp 0x01#8 [11#16, 22#16]) s10) (fun t =>
    t.txFrame == [0x01#8, 0x03#8, 0x04#8, 0x00#8, 0x0B#8, 0x00#8, 0x16#8, 0x0A#8, 0x3F#8]) = true := by decide +kernel
/-- The response of V41. -/
theorem test_build_wsrRsp : nextWith (exec (.wsrRsp 0x01#8 9#16 0xFFFF#16) s10) (fun t =>
    t.txFrame == [0x01#8, 0x06#8, 0x00#8, 0x09#8, 0xFF#8, 0xFF#8, 0x58#8, 0x78#8]) = true := by decide +kernel
/-- The response of V50. -/
theorem test_build_wmrRsp : nextWith (exec (.wmrRsp 0x01#8 2#16 3#16) s10) (fun t =>
    t.txFrame == [0x01#8, 0x10#8, 0x00#8, 0x02#8, 0x00#8, 0x03#8, 0x21#8, 0xC8#8]) = true := by decide +kernel
/-- The response of V33, built from the received function byte. -/
theorem test_build_excRsp : nextWith (exec (.excRsp 0x01#8 0x03#8 .illegalDataAddress) s10) (fun t =>
    t.txFrame == [0x01#8, 0x83#8, 0x02#8, 0xC0#8, 0xF1#8]) = true := by decide +kernel

/-! ## Assembler and drops -/

/-- V15, V17, V18, V19. -/
theorem test_drops : drops [0xFF#8, 0xFF#8] .short = true ∧
    drops [0x01#8, 0x03#8, 0x00#8, 0x00#8, 0x00#8, 0x19#8, 0x84#8] .short = true ∧
    drops [0x01#8, 0x03#8, 0x00#8, 0x00#8, 0x00#8, 0x02#8, 0xC4#8, 0x0C#8] .crc = true ∧
    drops [0x02#8, 0x03#8, 0x00#8, 0x00#8, 0x00#8, 0x02#8, 0xC4#8, 0x38#8] .foreign = true := by decide +kernel

/-- ACCUMULATING with the eight bytes of S1 since tick 47, polled at `now`. -/
def heldAt (now : Nat) : State := { withCandidate fS1 s10 with tMark := 47, now := now, inputs := [] }

/-- V64 and V65: four ticks of silence are too few, five are enough (`>=`). -/
theorem test_silence_threshold : (poll (heldAt 51)).1 = .none ∧ (poll (heldAt 52)).1 = .frame := by decide +kernel

/-- ACCUMULATING with `k` bytes since tick 90, and bytes waiting at 91. -/
def nearlyFull (k : Nat) (waiting : List Byte) : State :=
  { withCandidate (List.replicate k 0x55#8) s10 with tMark := 90, now := 91, rx := waiting, inputs := [] }

/-- V66 and V67: the 256th byte fits, the 257th discards all. -/
theorem test_overflow_boundary :
    (poll (nearlyFull 255 [0xAA#8])).1 = .none ∧ (poll (nearlyFull 255 [0xAA#8])).2.len.val = 256 ∧
    (poll (nearlyFull 255 [0xAA#8, 0xBB#8])).1 = .overflow ∧ (poll (nearlyFull 255 [0xAA#8, 0xBB#8])).2.len.val = 0 ∧
    (poll (nearlyFull 255 [0xAA#8, 0xBB#8])).2.fsm = .idle ∧
    (poll (nearlyFull 255 [0xAA#8, 0xBB#8])).2.rx = [] := by decide +kernel

/-- V72: a late byte is appended, however much time has passed. -/
theorem test_late_byte_is_appended :
    (poll { heldAt 500 with rx := [0x00#8] }).1 = .none ∧ (poll { heldAt 500 with rx := [0x00#8] }).2.len.val = 9 ∧
    (poll { heldAt 500 with rx := [0x00#8] }).2.tMark = 500 := by decide +kernel

/-- A state whose TXF holds the frame of V80. -/
def built (s : State) : State := { s with txf := Cells.writeList (w := 8) [] 0 [0x01#8, 0x83#8, 0x02#8, 0xC0#8, 0xF1#8], txLen := 5 }

/-- V80. -/
theorem test_send_rs485 : nextWith (send (built s485)) (fun t => t.txEn == false && t.trace ==
    [.enable true, .byte 0x01#8, .byte 0x83#8, .byte 0x02#8, .byte 0xC0#8, .byte 0xF1#8, .complete, .enable false])
    = true := by decide +kernel

/-- R142: reset in the middle of a frame keeps the bank and discards the bytes. -/
theorem test_engine_reset : (engineReset (heldAt 51)).fsm = .idle ∧ (engineReset (heldAt 51)).frame = [] ∧
    (engineReset (heldAt 51)).regs = bank10 := by decide +kernel

/-! ## Witnesses: the hypotheses of each obligation are met -/

theorem canSend_s10 : CanSend s10 := by unfold CanSend; decide
theorem canSend_s485 : CanSend s485 := by unfold CanSend; decide

theorem witness_RequestDecodeEncodeRoundTrip :
    (Instr.rhr 0xFF#8 0xFFFF#16 0#16 []).isRequest = true ∧ (Instr.rhr 0xFF#8 0xFFFF#16 0#16 []).wellFormed = true ∧
    (Instr.wmr 0x11#8 5#16 123#16 (List.replicate 248 0xA0#8)).isRequest = true ∧
    (Instr.wmr 0x11#8 5#16 123#16 (List.replicate 248 0xA0#8)).wellFormed = true ∧
    (Instr.illfn 0x01#8 0x83#8 []).isRequest = true ∧ (Instr.illfn 0x01#8 0x83#8 []).wellFormed = true := by
  decide +kernel

theorem witness_ResponseDecodeEncodeRoundTrip :
    (Instr.rhrRsp 0x01#8 [11#16]).isRequest = false ∧ (Instr.rhrRsp 0x01#8 [11#16]).wellFormed = true ∧
    (Instr.excRsp 0x01#8 0x80#8 .illegalFunction).isRequest = false ∧
    (Instr.excRsp 0x01#8 0x80#8 .illegalFunction).wellFormed = true := by decide

theorem witness_AcceptedRequestIsItsEncoding :
    fV50.length ≤ 256 ∧ decodeRequest 0x01#8 fV50
      = .ok (.wmr 0x01#8 2#16 3#16 [0x06#8, 0xAA#8, 0xBB#8, 0x00#8, 0x01#8, 0x80#8, 0x00#8]) := by decide +kernel

/-- The test that the last two bytes of a frame are the CRC of the others, as `ParseFollowsItsSteps` writes it. -/
abbrev crcOk (f : List Byte) : Prop :=
  be16 (f.getD (f.length - 1) 0#8) (f.getD (f.length - 2) 0#8) = crc16 (f.take (f.length - 2))

/-- One frame for each clause: too short, CRC wrong, foreign, unsupported function at 4 bytes, supported function at 7
bytes, and each supported function at 8 bytes or more. -/
theorem witness_ParseFollowsItsSteps :
    [0x01#8, 0x7E#8, 0x80#8].length < 4 ∧ ¬ crcOk [0x01#8, 0x03#8, 0x00#8, 0x00#8] ∧
    (crcOk [0x02#8, 0x03#8, 0x00#8, 0x00#8, 0x00#8, 0x02#8, 0xC4#8, 0x38#8] ∧ (0x02#8 : Byte) ≠ 0x01#8) ∧
    (crcOk fV21 ∧ fV21.getD 0 0#8 = 0x01#8 ∧ fV21.getD 1 0#8 = 0x07#8) ∧
    crcOk [0x01#8, 0x03#8, 0x00#8, 0x00#8, 0x00#8, 0x19#8, 0x84#8] ∧
    (crcOk fS1 ∧ fS1.getD 1 0#8 = 0x03#8) ∧ (crcOk fV40 ∧ fV40.getD 1 0#8 = 0x06#8) ∧
    (crcOk fV50 ∧ fV50.getD 1 0#8 = 0x10#8) := by decide +kernel

theorem witness_DataWordsStandByPosition :
    decodeRequest 0x01#8 fV50 = .ok (.wmr 0x01#8 2#16 3#16 [0x06#8, 0xAA#8, 0xBB#8, 0x00#8, 0x01#8, 0x80#8, 0x00#8]) ∧
    9 + 2 * (3#16 : Word).toNat ≤ fV50.length ∧ 2 < (3#16 : Word).toNat := by decide +kernel

theorem witness_CrcCheckComparesLowThenHigh : 4 ≤ [0xFF#8, 0xFF#8, 0x00#8, 0x00#8].length := by decide

theorem witness_CrcShiftMovesEveryBit : (15 : Nat) < 16 := by decide

/-- Each code and the pass, at the edges of the ranges: V21, V42, V35, V52, V37, V38, V51, V41, V32, V50. -/
theorem witness_ValidateDecidesTheCode :
    validate 0x07#8 0#16 0#16 10 4 = some .illegalFunction ∧
    validate 0x06#8 10#16 1#16 10 8 = some .illegalDataAddress ∧
    validate 0x03#8 0xFFFF#16 1#16 10 8 = some .illegalDataAddress ∧
    validate 0x10#8 8#16 3#16 10 15 = some .illegalDataAddress ∧
    validate 0x03#8 0#16 0#16 10 8 = some .illegalDataValue ∧ validate 0x03#8 0#16 126#16 10 8 = some .illegalDataValue ∧
    validate 0x10#8 0#16 124#16 10 13 = some .illegalDataValue ∧
    validate 0x10#8 2#16 3#16 10 13 = some .illegalDataValue ∧
    validate 0x06#8 9#16 0xFFFF#16 10 8 = none ∧ validate 0x03#8 0#16 125#16 130 8 = none ∧
    validate 0x10#8 2#16 3#16 10 15 = none := by decide +kernel

theorem witness_ReadAnswersBankContents : CanSend s10 ∧ 1 ≤ (1#16 : Word).toNat ∧ (1#16 : Word).toNat ≤ 125 ∧
    (9#16 : Word).toNat + (1#16 : Word).toNat ≤ s10.cfg.n := ⟨canSend_s10, by decide, by decide, by decide⟩

theorem witness_WriteSingleStoresAndEchoes : CanSend s485 ∧ (9#16 : Word).toNat < s485.cfg.n :=
  ⟨canSend_s485, by decide⟩

theorem witness_WriteMultipleStoresItsWords : CanSend s10 ∧ 1 ≤ (3#16 : Word).toNat ∧ (3#16 : Word).toNat ≤ 123 ∧
    (7#16 : Word).toNat + (3#16 : Word).toNat ≤ s10.cfg.n ∧
    9 + 2 * (3#16 : Word).toNat ≤ 8 + [0x06#8, 0xAA#8, 0xBB#8, 0x00#8, 0x01#8, 0x80#8, 0x00#8].length :=
  ⟨canSend_s10, by decide, by decide, by decide, by decide⟩

theorem witness_UnsupportedFunctionIsAnswered : CanSend s10 ∧ (0x83#8 : Byte) ≠ 0x03#8 ∧ (0x83#8 : Byte) ≠ 0x06#8 ∧
    (0x83#8 : Byte) ≠ 0x10#8 := ⟨canSend_s10, by decide, by decide, by decide⟩

/-- The six clauses, at counts 0, 126, 1, at address 10, at counts 0 and 124, 3, 3 (the operands of V37, V38, V34, V42,
V54, V57, V52, V51). -/
theorem witness_RefusedRequestTakesItsException : CanSend s10 ∧ (125 < (126#16 : Word).toNat) ∧
    s10.cfg.n < (10#16 : Word).toNat + (1#16 : Word).toNat ∧ s10.cfg.n ≤ (10#16 : Word).toNat ∧
    123 < (124#16 : Word).toNat ∧ s10.cfg.n < (8#16 : Word).toNat + (3#16 : Word).toNat ∧
    ((2#16 : Word).toNat + (3#16 : Word).toNat ≤ s10.cfg.n ∧
      8 + [0x06#8, 0xAA#8, 0xBB#8, 0x00#8, 0x01#8].length < 9 + 2 * (3#16 : Word).toNat) :=
  ⟨canSend_s10, by decide, by decide, by decide, by decide, by decide, by decide⟩

theorem witness_ForeignRequestIsDropped : (Instr.rhr 0x02#8 0#16 2#16 []).isRequest = true ∧
    (Instr.rhr 0x02#8 0#16 2#16 []).slave ≠ s10.cfg.slave := by decide

/-- RS-485 with a transport that reports nothing. -/
def sMute : State := { s485 with txReports := false }

theorem witness_UnreportedTransmissionIsStuck : (Instr.rhr 0x01#8 0#16 2#16 []).isRequest = true ∧
    (Instr.rhr 0x01#8 0#16 2#16 []).slave = sMute.cfg.slave ∧ sMute.cfg.rs485 = true ∧ sMute.txReports = false := by decide

theorem witness_ReadResponseIsBuilt : 1 ≤ (List.replicate 125 7#16).length ∧ (List.replicate 125 7#16).length ≤ 125 := by
  decide +kernel

theorem witness_ExceptionResponseIsBuilt : (0x80#8 : Byte).msb = true := by decide

theorem witness_OverlongReadResponseStops : 125 < (List.replicate 126 7#16).length := by decide +kernel

theorem witness_SendSequencesTransmitEnable : (s485.cfg.rs485 = true ∧ s485.txReports = true) ∧
    (sMute.cfg.rs485 = true ∧ sMute.txReports = false) ∧ s10.cfg.rs485 = false := by decide

/-- One state for each row of R82, at the edges: V60, V70, V69, V66, V67, V64, V65. -/
theorem witness_PollFollowsTransitionTable :
    (s10.fsm = .idle ∧ s10.rx = []) ∧
    ({ s10 with rx := List.replicate 256 0x55#8 }.rx.length = 256) ∧
    ({ s10 with rx := List.replicate 257 0x55#8 }.rx.length = 257) ∧
    ((nearlyFull 255 [0xAA#8]).fsm = .accumulating ∧ (nearlyFull 255 [0xAA#8]).len.val + 1 = 256) ∧
    ((nearlyFull 255 [0xAA#8, 0xBB#8]).fsm = .accumulating ∧ (nearlyFull 255 [0xAA#8, 0xBB#8]).len.val + 2 = 257) ∧
    ((heldAt 51).rx = [] ∧ (heldAt 51).now - (heldAt 51).tMark < (heldAt 51).cfg.silence) ∧
    ((heldAt 52).rx = [] ∧ (heldAt 52).cfg.silence ≤ (heldAt 52).now - (heldAt 52).tMark) := by decide +kernel

theorem witness_QuietPollChangesNothing : ((takeInputs s10).rx = [] ∧ s10.fsm = .idle) ∧
    ((takeInputs (heldAt 51)).rx = [] ∧ (heldAt 51).fsm = .accumulating ∧
      (takeInputs (heldAt 51)).now - (heldAt 51).tMark < (heldAt 51).cfg.silence) := by decide +kernel

theorem witness_ArrivingBytesAreAppended : (nearlyFull 255 [0xAA#8]).fsm ≠ .settled ∧
    (takeInputs (nearlyFull 255 [0xAA#8])).rx ≠ [] ∧
    (nearlyFull 255 [0xAA#8]).frame.length + (takeInputs (nearlyFull 255 [0xAA#8])).rx.length ≤ 256 := by decide +kernel

theorem witness_OverflowDiscardsEverything : (nearlyFull 256 [0x55#8]).fsm ≠ .settled ∧
    (takeInputs (nearlyFull 256 [0x55#8])).rx ≠ [] ∧
    256 < (nearlyFull 256 [0x55#8]).frame.length + (takeInputs (nearlyFull 256 [0x55#8])).rx.length := by decide +kernel

/-- The request S1 in three pieces (as P1 splits its request), ten ticks apart. -/
def pieces : List PollInput :=
  [{ quietPoll 10 with arrivals := fS1.take 3 }, { quietPoll 10 with arrivals := (fS1.drop 3).take 1 },
   { quietPoll 10 with arrivals := fS1.drop 4 }]

theorem witness_PiecesMakeOneFrame : pieces ≠ [] ∧ (∀ p ∈ pieces, p.arrivals ≠ []) ∧ s10.fsm ≠ .settled ∧ s10.rx = [] ∧
    { s10 with inputs := pieces ++ [] }.inputs = pieces ++ [] ∧ (pieces.map PollInput.arrivals).flatten = fS1 := by
  decide +kernel

/-- The request S1 and a frame with a wrong CRC, each settled by the next poll. -/
theorem witness_StepRunsTheParsedRequest :
    ((withCandidate fS1 s10).fsm = .accumulating ∧ (takeInputs (withCandidate fS1 s10)).rx = [] ∧
      (withCandidate fS1 s10).cfg.silence ≤ (takeInputs (withCandidate fS1 s10)).now - (withCandidate fS1 s10).tMark ∧
      decodeRequest (withCandidate fS1 s10).cfg.slave (withCandidate fS1 s10).frame = .ok (.rhr 0x01#8 0#16 2#16 [])) ∧
    decodeRequest (withCandidate [0x01#8, 0x03#8, 0x00#8, 0x00#8] s10).cfg.slave
      (withCandidate [0x01#8, 0x03#8, 0x00#8, 0x00#8] s10).frame = .error .crc := by decide +kernel

theorem witness_FetchWordIsRunNext :
    decodeRequest s10.cfg.slave (tableFrame s10.cfg.slave 8 0x06) = .ok (.wsr 0x01#8 0#16 0#16 []) := by decide +kernel

theorem witness_CycleReportsTheFirstFailure : CanSend (withCandidate fV50 s485) := by
  unfold CanSend; decide +kernel

theorem witness_StepSendsAtMostOneStampedFrame : ∃ t, step (withCandidate fS1 s10) = .next t ∧
    (t.trace != (withCandidate fS1 s10).trace) = true := exists_next (by decide +kernel)

theorem witness_NoReplySendsNothing : (∃ t, step s10 = .next t ∧ (t.outcome == .noActivity) = true) ∧
    ∃ t, step (withCandidate [0xFF#8, 0xFF#8] s10) = .next t ∧ (t.outcome == .noReply .short) = true :=
  ⟨exists_next (by decide +kernel), exists_next (by decide +kernel)⟩

theorem witness_OnlyProcessedWritesChangeTheBank : ∃ t, step (withCandidate fV40 s10) = .next t ∧
    (Cells.read t.regs 5 != Cells.read (takeInputs (withCandidate fV40 s10)).regs 5) = true :=
  exists_next (by decide +kernel)

theorem witness_StepKeepsConfigurationAndTime : ∃ t, step (withCandidate fV40 s10) = .next t ∧ (t.now == 5) = true :=
  exists_next (by decide +kernel)

theorem witness_ServerFailureIsNeverRaised : ∃ t, step (withCandidate fV21 s10) = .next t ∧
    (t.trace == sendTrace false [0x01#8, 0x87#8, 0x01#8, 0x82#8, 0x30#8]) = true := exists_next (by decide +kernel)

/-- A state for each kind of Outcome, and for each reason and code that the statement tells apart. -/
theorem witness_OutcomeArgumentIsInRange : (∃ t, step s10 = .next t ∧ (t.outcome == .noActivity) = true) ∧
    (∃ t, step (withCandidate fV50 s10) = .next t ∧ (t.outcome == .frameProcessed 15) = true) ∧
    (∃ t, step (withCandidate fV21 s10) = .next t ∧ (t.outcome == .exception .illegalFunction) = true) ∧
    (∃ t, step (withCandidate [0x01#8, 0x06#8, 0x00#8, 0x0A#8, 0x00#8, 0x01#8, 0x68#8, 0x08#8] s10) = .next t ∧
      (t.outcome == .exception .illegalDataAddress) = true) ∧
    (∃ t, step (withCandidate [0x01#8, 0x03#8, 0x00#8, 0x00#8, 0x00#8, 0x00#8, 0x45#8, 0xCA#8] s10) = .next t ∧
      (t.outcome == .exception .illegalDataValue) = true) ∧
    (∃ t, step (nearlyFull 256 [0x55#8]) = .next t ∧ (t.outcome == .noReply .overflow) = true) ∧
    (∃ t, step (withCandidate [0xFF#8, 0xFF#8] s10) = .next t ∧ (t.outcome == .noReply .short) = true) ∧
    (∃ t, step (withCandidate [0x01#8, 0x03#8, 0x00#8, 0x00#8] s10) = .next t ∧ (t.outcome == .noReply .crc) = true) ∧
    ∃ t, step (withCandidate [0x02#8, 0x03#8, 0x00#8, 0x00#8, 0x00#8, 0x02#8, 0xC4#8, 0x38#8] s10) = .next t ∧
      (t.outcome == .noReply .foreign) = true :=
  ⟨exists_next (by decide +kernel), exists_next (by decide +kernel), exists_next (by decide +kernel),
   exists_next (by decide +kernel), exists_next (by decide +kernel), exists_next (by decide +kernel),
   exists_next (by decide +kernel), exists_next (by decide +kernel), exists_next (by decide +kernel)⟩

/-- The same state but for TXF, the bytes past `len` and the mark of an idle assembler. -/
theorem witness_UnreadStorageCannotMatter :
    SameButUnread s10 { s10 with txf := [(0, 0x55#8)], raw := [(3, 0x01#8)], tMark := 9 } := by
  unfold SameButUnread; decide +kernel

/-- An idle machine to which the request S1 comes in one poll, then five ticks of silence. -/
def sEnd : State := { s10 with inputs := [{ quietPoll 40 with arrivals := fS1 }, quietPoll 5] }

theorem witness_WellFormedRequestIsAnsweredOnce :
    (Instr.rhr 0x01#8 0#16 2#16 []).isRequest = true ∧ (Instr.rhr 0x01#8 0#16 2#16 []).wellFormed = true ∧
    (Instr.rhr 0x01#8 0#16 2#16 []).slave = sEnd.cfg.slave ∧ sEnd.fsm = .idle ∧ sEnd.rx = [] ∧
    sEnd.inputs = { quietPoll 40 with arrivals := fS1 } :: quietPoll 5 :: [] ∧
    fS1 = encode (.rhr 0x01#8 0#16 2#16 []) ∧ sEnd.cfg.silence ≤ 5 := by decide +kernel

theorem witness_WriteSingleIsIdempotent : (5#16 : Word).toNat < s10.cfg.n ∧
    ∃ t, exec (.wsr s10.cfg.slave 5#16 0x1234#16 []) s10 = .next t ∧
      nextWith (exec (.wsr s10.cfg.slave 5#16 0x1234#16 []) t) (fun u => u.regs == t.regs) = true :=
  ⟨by decide, exists_next (by decide +kernel)⟩

/-- A poll before which the host writes register 9 twice, register 3, and an index outside the bank. -/
def hostPoll : PollInput := { quietPoll 1 with hostWrites := [(9, 1#16), (10, 5#16), (9, 0xFFFF#16), (3, 7#16)] }

/-- The writes of V41 and V50 (its last register), and the host's, each read right after. -/
theorem witness_ReadReturnsTheLatestWrite : CanSend s10 ∧ (9#16 : Word).toNat < s10.cfg.n ∧
    (∃ t, exec (.wsr s10.cfg.slave 9#16 0xFFFF#16 []) s10 = .next t ∧
      (t.cfg == s10.cfg && t.txReports && Cells.read t.regs 9 == 0xFFFF#16) = true) ∧
    (∃ t, exec (.wmr s10.cfg.slave 2#16 3#16 [0x06#8, 0xAA#8, 0xBB#8, 0x00#8, 0x01#8, 0x80#8, 0x00#8]) s10 = .next t ∧
      (t.cfg == s10.cfg && t.txReports && Cells.read t.regs 4 == 0x8000#16) = true) ∧
    hostPoll.hostWrites = [(9, 1#16), (10, 5#16)] ++ (9, 0xFFFF#16) :: [(3, 7#16)] ∧
    (∀ q ∈ [(3, 7#16)], q.1 ≠ 9) :=
  ⟨canSend_s10, by decide, exists_next (by decide +kernel), exists_next (by decide +kernel), by decide, by decide⟩

/-- V55: two surplus bytes after the data word of a write-multiple; and the premise of that clause at its edge. -/
theorem witness_UnexaminedBytesHaveNoEffect : 1 + 2 * (1#16 : Word).toNat ≤ [0x02#8, 0xBE#8, 0xEF#8].length ∧
    ∃ t, exec (.wmr 0x01#8 0#16 1#16 ([0x02#8, 0xBE#8, 0xEF#8] ++ [0x99#8, 0x99#8])) s10 = .next t ∧
      (t.outcome == .frameProcessed 13 && Cells.read t.regs 0 == 0xBEEF#16) = true :=
  ⟨by decide, exists_next (by decide +kernel)⟩

theorem witness_StepKeepsInvariant : Inv (withCandidate fV40 s485) ∧
    ∃ t, step (withCandidate fV40 s485) = .next t ∧ (t.outcome == .frameProcessed 8) = true :=
  ⟨by unfold Inv SpacesSound AssemblerSound; decide +kernel, exists_next (by decide +kernel)⟩

theorem witness_ResetMeetsInvariant : Config.atReset.Legal ∧ Cells.canonical bank10 = true ∧
    Cells.below bank10 Config.atReset.n = true := by decide +kernel

theorem witness_CycleEndsAsResetBegins : ∃ t, step (withCandidate fS1 s485) = .next t ∧
    (t.outcome != .noActivity && !(withCandidate fS1 s485).bankBusy && !(withCandidate fS1 s485).txEn) = true :=
  exists_next (by decide +kernel)

/-- The mark one tick before the clock's wrap, sampled three ticks after it. -/
theorem witness_WrappedClockMeasuresElapsedTime :
    2 ^ 32 - 1 ≤ 2 ^ 32 + 3 ∧ (2 ^ 32 + 3) - (2 ^ 32 - 1) < 2 ^ 32 ∧
    elapsedTW ((2 ^ 32 + 3) % 2 ^ 32) ((2 ^ 32 - 1) % 2 ^ 32) = 4 := by decide +kernel

/-- A clock cycle in which nothing comes and the transmitter is ready and done. -/
def calm : ClockIn :=
  { rst := false, rx := none, txReady := true, txDone := true, now := 52#32, hostWrites := [], hold := false }

theorem witness_ClockResetAbandonsTheCycle : { calm with rst := true }.rst = true ∧
    (ports calm { s := built s485, phase := .push 1 (.frameProcessed 8) }).tx = some 0x83#8 := by decide +kernel

theorem witness_ClockOverflowAtFullBuffer :
    (tick { calm with rx := some 0x55#8 } { s := nearlyFull 256 [], phase := .poll }).s.outcome = .noReply .overflow ∧
    (tick { calm with rx := some 0x55#8 } { s := nearlyFull 255 [], phase := .poll }).s.outcome = .noActivity ∧
    (nearlyFull 256 []).fsm ≠ .settled := by decide +kernel

/-- A polling clock cycle, and one of SETTLED with RS-485. -/
theorem witness_ClockCyclesRefineServiceStep : calm.rst = false ∧
    (CanSend (heldAt 51) ∧ (heldAt 51).fsm ≠ .settled ∧ (heldAt 51).tMark ≤ calm.now.toNat ∧
      (tick calm { s := heldAt 51, phase := .poll }).phase = .check) ∧
    (CanSend (built s485) ∧ Phase.push 1 (.frameProcessed 8) ≠ .poll) := by
  refine ⟨rfl, ⟨?_, by decide +kernel, by decide +kernel, by decide +kernel⟩, ?_, by decide⟩
  · unfold CanSend; decide +kernel
  · unfold CanSend; decide +kernel

/-- The premises at a build of three bytes, a read of 125 registers and a write of one. -/
theorem witness_ClockCycleEnds : calm.hold = false ∧ calm.txReady = true ∧ calm.txDone = true ∧
    (∀ body o, (Phase.build [0x01#8, 0x83#8, 0x02#8] (.exception .illegalDataAddress)) = .build body o →
      body.length ≤ 254) ∧
    (∀ next left got o, (Phase.read 0 125 [] (.frameProcessed 8)) = .read next left got o → got.length + left ≤ 125) ∧
    (∀ next left body o, (Phase.write 0 [7#16] [0x01#8] (.frameProcessed 8)) = .write next left body o →
      body.length ≤ 254) := by
  refine ⟨rfl, rfl, rfl, ?_, ?_, ?_⟩
  · intro body o h; injection h with h1 h2; subst h1; decide
  · intro next left got o h; injection h with h1 h2 h3 h4; subst h2 h3; decide
  · intro next left body o h; injection h with h1 h2 h3 h4; subst h3; decide

/-- A byte on offer, at a transmitter that takes it and at one that does not, with and without `hold`; and a clock cycle
with no byte on offer. -/
theorem witness_ClockHandsOverEachByteOnce :
    (ports { calm with hold := true } { s := built s485, phase := .push 4 (.frameProcessed 8) }).tx = some 0xF1#8 ∧
    (tick { calm with hold := true } { s := built s485, phase := .push 4 (.frameProcessed 8) }).s.trace
      = [.byte 0xF1#8] ∧
    (tick { calm with hold := true } { s := built s485, phase := .push 4 (.frameProcessed 8) }).phase
      = .gap 5 (.frameProcessed 8) ∧
    (tick { calm with txReady := false } { s := built s485, phase := .push 4 (.frameProcessed 8) }).phase
      = .push 4 (.frameProcessed 8) ∧
    (ports calm { s := built s485, phase := .gap 4 (.frameProcessed 8) }).tx = none := by decide +kernel

/-- The host's last write to register 9 counts; register 0 is not written; index 10 is outside the bank. -/
theorem witness_HostWritesReachTheBank : s10.inputs = [] ∧
    { s10 with inputs := [hostPoll] }.inputs = hostPoll :: [] ∧
    hostPoll.hostWrites = [(9, 1#16), (10, 5#16)] ++ (9, 0xFFFF#16) :: [(3, 7#16)] ∧ 9 < s10.cfg.n ∧
    (∀ q ∈ [(3, 7#16)], q.1 ≠ 9) ∧ (∀ q ∈ hostPoll.hostWrites, q.1 ≠ 0) ∧ s10.cfg.n ≤ 10 ∧
    (takeInputs { s10 with inputs := [hostPoll] }).regs = Cells.write (Cells.write bank10 9 0xFFFF#16) 3 7#16 := by
  decide +kernel

/-- R143: reset does not write the bank, and a host write in that clock cycle takes effect (log 18). -/
theorem test_reset_host_write :
    (tick { calm with rst := true, hostWrites := [(0, 5#16)] } { s := built s485, phase := .push 1 (.frameProcessed 8) }).s.regs
      = Cells.write bank10 0 5#16 := by decide +kernel

end Sys2Proof.Tests
end

section
/-! SUPPORT. Proofs of the family `10_state.md`. First, noninterference: what no rule reads cannot matter (R18, R19, R20,
R84). The relation is carried through the stages of a step in the order in which the step runs them. -/

namespace Sys2Proof

open Machine

/-- Two results that no later step tells apart: next states that are the same but for what is never read, or one and
the same fault. -/
def AlikeResults (o o' : Host.Outcome State Fault Refusal) : Prop :=
  (∃ t t', o = .next t ∧ o' = .next t' ∧ SameButUnread t t') ∨ ∃ r, o = .fault r ∧ o' = .fault r

theorem AlikeResults.next {t t' : State} (h : SameButUnread t t') : AlikeResults (.next t) (.next t') :=
  .inl ⟨t, t', rfl, rfl, h⟩

theorem AlikeResults.fault (r : Fault) : AlikeResults (.fault r) (.fault r) := .inr ⟨r, rfl, rfl⟩

theorem AlikeResults.andThen {o o' : Host.Outcome State Fault Refusal}
    {f : State → Host.Outcome State Fault Refusal} (h : AlikeResults o o')
    (hf : ∀ t t', SameButUnread t t' → AlikeResults (f t) (f t')) :
    AlikeResults (Machine.andThen o f) (Machine.andThen o' f) := by
  obtain ⟨t, t', rfl, rfl, ht⟩ | ⟨r, rfl, rfl⟩ := h
  · exact hf t t' ht
  · exact .fault r

section
variable {s s' : State}

/-- The relation as an update: the second state is the first with other contents in the four unread fields. -/
theorem sameButUnread_iff : SameButUnread s s' ↔ ∃ tMark raw txf txLen,
    s' = { s with tMark := tMark, raw := raw, txf := txf, txLen := txLen } ∧
    Cells.readList (w := 8) raw 0 s.len.val = s.frame ∧ (s.fsm = .accumulating → tMark = s.tMark) := by
  constructor
  · rintro ⟨hcfg, hregs, hfsm, hlen, hframe, hmark, hen, hbusy, hout, hnow, hrx, htrace, hrep, hin⟩
    refine ⟨s'.tMark, s'.raw, s'.txf, s'.txLen, ?_, ?_, hmark⟩
    · rw [← hcfg, ← hregs, ← hfsm, ← hlen, ← hen, ← hbusy, ← hout, ← hnow, ← hrx, ← htrace, ← hrep, ← hin]
    · rw [← hframe, ← hlen]; rfl
  · rintro ⟨tMark, raw, txf, txLen, rfl, hframe, hmark⟩
    exact ⟨rfl, rfl, rfl, rfl, hframe, hmark, rfl, rfl, rfl, rfl, rfl, rfl, rfl, rfl⟩

variable (h : SameButUnread s s')
include h

theorem SameButUnread.cfg_eq : s'.cfg = s.cfg := h.1

theorem SameButUnread.fsm_eq : s'.fsm = s.fsm := by
  obtain ⟨_, _, _, _, rfl, _⟩ := sameButUnread_iff.mp h; rfl

theorem SameButUnread.len_eq : s'.len = s.len := by
  obtain ⟨_, _, _, _, rfl, _⟩ := sameButUnread_iff.mp h; rfl

theorem SameButUnread.rx_eq : s'.rx = s.rx := by
  obtain ⟨_, _, _, _, rfl, _⟩ := sameButUnread_iff.mp h; rfl

theorem SameButUnread.frame_eq : s'.frame = s.frame := by
  obtain ⟨_, _, _, _, rfl, hframe, _⟩ := sameButUnread_iff.mp h; exact hframe

/-- The time since the mark is read in ACCUMULATING, where the marks are the same (R18, R77). -/
theorem SameButUnread.elapsed_eq (hf : s.fsm = .accumulating) : elapsed s' = elapsed s := by
  obtain ⟨_, _, _, _, rfl, -, hmark⟩ := sameButUnread_iff.mp h
  simp only [elapsed, hmark hf]

theorem SameButUnread.readRegs_eq (start count : Nat) : s'.readRegs start count = s.readRegs start count := by
  obtain ⟨_, _, _, _, rfl, _⟩ := sameButUnread_iff.mp h; rfl

theorem SameButUnread.txReports_eq : s'.txReports = s.txReports := by
  obtain ⟨_, _, _, _, rfl, _⟩ := sameButUnread_iff.mp h; rfl

theorem SameButUnread.canSend (hs : CanSend s) : CanSend s' := by
  unfold CanSend; rw [h.cfg_eq, h.txReports_eq]; exact hs

/-! ## The outside's moves and POLL -/

theorem SameButUnread.takeInputs : SameButUnread (takeInputs s) (takeInputs s') := by
  obtain ⟨tMark, raw, txf, txLen, rfl, hframe, hmark⟩ := sameButUnread_iff.mp h
  cases hin : s.inputs with
  | nil => simpa only [Machine.takeInputs, hin] using h
  | cons p rest =>
    refine sameButUnread_iff.mpr ⟨tMark, raw, txf, txLen, ?_, ?_, ?_⟩ <;> simp only [Machine.takeInputs, hin]
    · exact hframe
    · exact hmark

theorem SameButUnread.report (o : ServiceOutcome) : SameButUnread (report o s) (report o s') := by
  obtain ⟨tMark, raw, txf, txLen, rfl, hframe, hmark⟩ := sameButUnread_iff.mp h
  exact sameButUnread_iff.mpr ⟨tMark, raw, txf, txLen, rfl, hframe, hmark⟩

theorem SameButUnread.writeRegs (a : Nat) (d : List Word) : SameButUnread (s.writeRegs a d) (s'.writeRegs a d) := by
  obtain ⟨tMark, raw, txf, txLen, rfl, hframe, hmark⟩ := sameButUnread_iff.mp h
  exact sameButUnread_iff.mpr ⟨tMark, raw, txf, txLen, rfl, hframe, hmark⟩

/-- The end of a cycle forgets the frame and the mark (R79). -/
theorem SameButUnread.endCycle : SameButUnread (endCycle s) (endCycle s') := by
  obtain ⟨tMark, raw, txf, txLen, rfl, -, -⟩ := sameButUnread_iff.mp h
  exact sameButUnread_iff.mpr ⟨tMark, raw, txf, txLen, rfl, rfl, by simp⟩

theorem SameButUnread.settle : SameButUnread (settle s).2 (settle s').2 := by
  obtain ⟨tMark, raw, txf, txLen, rfl, hframe, -⟩ := sameButUnread_iff.mp h
  exact sameButUnread_iff.mpr ⟨tMark, raw, txf, txLen, rfl, hframe, by simp⟩

/-- A drain behind the same bytes leaves the same frame, and the mark is new in both (R75, R78). -/
theorem SameButUnread.drain (base : Nat)
    (hbase : Cells.readList (w := 8) s'.raw 0 base = Cells.readList (w := 8) s.raw 0 base) :
    (drain base s').1 = (drain base s).1 ∧ SameButUnread (drain base s).2 (drain base s').2 := by
  obtain ⟨tMark, raw, txf, txLen, rfl, -, -⟩ := sameButUnread_iff.mp h
  by_cases hfit : base + s.rx.length < 257
  · simp only [Machine.drain, hfit, dif_pos, true_and]
    refine sameButUnread_iff.mpr ⟨s.now, Cells.writeList (w := 8) raw base s.rx, txf, txLen, rfl, ?_, fun _ => rfl⟩
    simp only [State.frame, Cells.readList_writeList_append]
    rw [hbase]
  · simp only [Machine.drain, hfit, dif_neg, not_false_eq_true, true_and]
    exact sameButUnread_iff.mpr ⟨tMark, raw, txf, txLen, rfl, rfl, by simp⟩

/-- POLL reads the mark in ACCUMULATING only, and of RawFrame only what it keeps (R72). -/
theorem SameButUnread.poll : (poll s').1 = (poll s).1 ∧ SameButUnread (poll s).2 (poll s').2 := by
  unfold Machine.poll pollAt
  rw [h.fsm_eq, h.rx_eq]
  by_cases hq : s.rx = []
  · simp only [hq, if_true]
    cases hf : s.fsm with
    | idle => exact ⟨rfl, h⟩
    | accumulating =>
      simp only [h.elapsed_eq hf, h.cfg_eq]
      split
      · exact ⟨rfl, h⟩
      · exact ⟨rfl, h.settle⟩
    | settled => exact ⟨rfl, h.settle⟩
  · simp only [hq, if_false]
    cases s.fsm with
    | idle => exact h.drain 0 rfl
    | accumulating =>
      rw [h.len_eq]
      exact h.drain s.len.val (by simpa only [State.frame, h.len_eq] using h.frame_eq)
    | settled => exact ⟨rfl, h.settle⟩

/-! ## A cycle on the settled frame -/

/-- The states after the same answer differ at most where the states before it did. -/
theorem SameButUnread.answered {t t' : State} {bytes : List Byte} {o : ServiceOutcome} (ht : Answered s t bytes o)
    (ht' : Answered s' t' bytes o) (hr : t.regs = s.regs) (hr' : t'.regs = s'.regs) : SameButUnread t t' := by
  obtain ⟨hcfg, hregs, hfsm, hlen, hframe, hmark, hen, hbusy, -, hnow, hrx, htrace, hrep, hin⟩ := h
  obtain ⟨ho, htr, -, -, -, he, ecfg, efsm, elen, emark, eraw, ebusy, enow, erx, erep, ein⟩ := ht
  obtain ⟨ho', htr', -, -, -, he', ecfg', efsm', elen', emark', eraw', ebusy', enow', erx', erep', ein'⟩ := ht'
  refine ⟨?_, ?_, ?_, ?_, ?_, ?_, ?_, ?_, ?_, ?_, ?_, ?_, ?_, ?_⟩
  case refine_5 => rw [frame_congr eraw elen, frame_congr eraw' elen', hframe]
  case refine_6 => rw [efsm, emark, emark']; exact hmark
  all_goals simp only [*]

/-- BUILD and SEND read nothing that the relation leaves open: `tx` is written before it is sent (R107, R113). -/
theorem SameButUnread.respond (body : List Byte) (o : ServiceOutcome) :
    AlikeResults (respond body o s) (respond body o s') := by
  by_cases hb : body.length + 2 < 257
  · by_cases hs : CanSend s
    · obtain ⟨t, ht, ha, hr, -⟩ := respond_answers o s hb hs
      obtain ⟨t', ht', ha', hr', -⟩ := respond_answers o s' hb (h.canSend hs)
      rw [ht, ht']
      exact .next (h.answered ha ha' hr hr')
    · rw [canSend_iff, not_not] at hs
      obtain ⟨hrs, hrep⟩ := hs
      rw [respond_stuck o s hb hrs hrep, respond_stuck o s' hb (h.cfg_eq ▸ hrs) (h.txReports_eq ▸ hrep)]
      exact .fault _
  · rw [Machine.respond, Machine.respond, build_too_long s hb, build_too_long s' hb]
    exact .fault _

theorem SameButUnread.raiseException (fn : Byte) (code : ExcCode) :
    AlikeResults (raiseException fn code s) (raiseException fn code s') := by
  unfold Machine.raiseException
  rw [h.cfg_eq]
  exact h.respond _ _

theorem SameButUnread.dropFrame (r : DropReason) : SameButUnread (dropFrame r s) (dropFrame r s') := h.report _

theorem SameButUnread.addressed (slave : Byte) {k k' : Host.Outcome State Fault Refusal} (hk : AlikeResults k k') :
    AlikeResults (addressed slave s k) (addressed slave s' k') := by
  unfold Machine.addressed
  rw [h.cfg_eq]
  by_cases hsl : slave = s.cfg.slave
  · simpa only [hsl, if_true] using hk
  · simpa only [hsl, if_false] using AlikeResults.next (h.dropFrame .foreign)

theorem SameButUnread.exec_request {i : Instr} (hi : i.isRequest = true) : AlikeResults (exec i s) (exec i s') := by
  cases i with
  | rhr sl start count surplus =>
    refine h.addressed sl ?_
    rw [h.cfg_eq, h.readRegs_eq]
    cases validate fnRead start count s.cfg.n (requestLen surplus) with
    | some code => exact h.raiseException fnRead code
    | none => exact h.respond _ _
  | wsr sl addr value surplus =>
    refine h.addressed sl ?_
    rw [h.cfg_eq]
    cases validate fnWrite1 addr value s.cfg.n (requestLen surplus) with
    | some code => exact h.raiseException fnWrite1 code
    | none => exact (h.writeRegs _ _).respond _ _
  | wmr sl start count rest =>
    refine h.addressed sl ?_
    rw [h.cfg_eq]
    cases validate fnWriteN start count s.cfg.n (requestLen rest) with
    | some code => exact h.raiseException fnWriteN code
    | none => exact (h.writeRegs _ _).respond _ _
  | illfn sl fn payload => exact h.addressed sl (h.raiseException fn .illegalFunction)
  | rhrRsp => simp [Instr.isRequest] at hi
  | wsrRsp => simp [Instr.isRequest] at hi
  | wmrRsp => simp [Instr.isRequest] at hi
  | excRsp => simp [Instr.isRequest] at hi

theorem SameButUnread.process : AlikeResults (process s) (process s') := by
  unfold Machine.process
  rw [h.cfg_eq, h.frame_eq]
  cases hd : decodeRequest s.cfg.slave s.frame with
  | error r => exact .next (h.dropFrame r)
  | ok i => exact h.exec_request (decodeRequest_isRequest hd).1

theorem SameButUnread.cycle : AlikeResults (cycle s) (cycle s') :=
  h.process.andThen fun _ _ ht => .next ht.endCycle

theorem SameButUnread.service : AlikeResults (service s) (service s') := by
  obtain ⟨hres, hstate⟩ := h.poll
  unfold Machine.service
  rcases hp : Machine.poll s with ⟨r, s1⟩
  rcases hp' : Machine.poll s' with ⟨r', s1'⟩
  rw [hp, hp'] at hres hstate
  obtain rfl : r' = r := hres
  cases r' with
  | none => exact .next (hstate.report _)
  | overflow => exact .next (hstate.report _)
  | frame => exact hstate.cycle

end

end Sys2Proof

namespace Sys2Proof.Proofs

/-- Settles O40: the relation passes through the outside's moves, the poll and the cycle. -/
theorem unreadStorageCannotMatter : Obligations.UnreadStorageCannotMatter := by
  unfold Obligations.UnreadStorageCannotMatter
  exact fun _ _ h => h.takeInputs.service

end Sys2Proof.Proofs
end

section
/-! SUPPORT. What every step keeps: the configuration and the order of time (R15, R25, R137), and the machine's invariant
(R16, R17, R18, R27, R30, R139), from the state after reset on (R28). -/

namespace Sys2Proof.Machine

/-! ## What a processed frame leaves alone -/

theorem RequestResult.engineUntouched {s t : State} (h : RequestResult s t) : EngineUntouched s t := by
  obtain rfl | ⟨body, _, _, _, _, ha, _⟩ := h.shape
  · exact ⟨rfl, rfl, rfl, rfl, rfl, rfl, rfl, rfl, rfl, rfl⟩
  · obtain ⟨_, _, _, _, _, _, hu⟩ := ha
    exact hu

/-- PROCESS leaves the configuration, the assembler, RawFrame, time and the schedule alone (R118, R137). -/
theorem process_engineUntouched {s t : State} (h : process s = .next t) : EngineUntouched s t := by
  obtain ⟨r, _, rfl⟩ | ⟨i, _, _, hr⟩ := process_next h
  · exact ⟨rfl, rfl, rfl, rfl, rfl, rfl, rfl, rfl, rfl, rfl⟩
  · exact hr.engineUntouched

/-! ## The spaces and the transmit-enable signal through a processed frame -/

theorem AnsweredWith.txEn {s t : State} {body : List Byte} {o : ServiceOutcome} (h : AnsweredWith s t body o)
    (hs : s.txEn = false) : t.txEn = false := by
  obtain ⟨_, ⟨_, _, _, _, _, hen, _⟩, _⟩ := h
  simp [hen, hs]

/-- An answer puts one frame of at most 256 bytes at the start of TXF, so the spaces are sound if the bank is (R107). -/
theorem AnsweredWith.spacesSound {s t : State} {body : List Byte} {o : ServiceOutcome} (h : AnsweredWith s t body o)
    (hs : SpacesSound s) (hc : Cells.canonical t.regs = true) (hb : Cells.below t.regs s.cfg.n = true) :
    SpacesSound t := by
  obtain ⟨hlegal, _, _, hraw, hrawb, htxf, htxfb⟩ := hs
  obtain ⟨_, ⟨_, _, hlen, _, _, _, hcfg, _, _, _, eraw, _⟩, etxf⟩ := h
  have hfit : 0 + (stamp body).length ≤ 256 := by have := t.txLen.isLt; omega
  unfold SpacesSound
  rw [hcfg, eraw, etxf]
  exact ⟨hlegal, hc, hb, hraw, hrawb, Cells.canonical_writeList 0 _ htxf, Cells.below_writeList _ htxfb hfit⟩

theorem RequestResult.spacesSound_txEn {s t : State} (h : RequestResult s t) (hs : SpacesSound s)
    (hen : s.txEn = false) : SpacesSound t ∧ t.txEn = false := by
  obtain ⟨_, hc, hb, _⟩ := id hs
  cases h with
  | dropped h => subst h; exact ⟨hs, hen⟩
  | refused fn code _ h hr => exact ⟨h.spacesSound hs (hr ▸ hc) (hr ▸ hb), h.txEn hen⟩
  | read values n _ _ h hr => exact ⟨h.spacesSound hs (hr ▸ hc) (hr ▸ hb), h.txEn hen⟩
  | wrote fn a b n ws hw h hr =>
    refine ⟨h.spacesSound hs ?_ ?_, h.txEn hen⟩ <;> rw [hr]
    · exact Cells.canonical_writeList _ ws hc
    · exact Cells.below_writeList ws hb hw

theorem process_spacesSound_txEn {s t : State} (h : process s = .next t) (hs : SpacesSound s) (hen : s.txEn = false) :
    SpacesSound t ∧ t.txEn = false := by
  obtain ⟨r, _, rfl⟩ | ⟨i, _, _, hr⟩ := process_next h
  · exact ⟨hs, hen⟩
  · exact hr.spacesSound_txEn hs hen

/-! ## The outside's moves -/

theorem takeInputs_nil {s : State} (h : s.inputs = []) : takeInputs s = s := by simp only [takeInputs, h]

theorem takeInputs_cons {s : State} {p : PollInput} {polls : List PollInput} (h : s.inputs = p :: polls) :
    takeInputs s = { s with inputs := polls, now := s.now + p.ticks, rx := s.rx ++ p.arrivals,
                            txReports := p.txReports, regs := hostWrites s.cfg.n s.regs p.hostWrites } := by
  simp only [takeInputs, h]

/-! ## The invariant through the stages of a step -/

theorem takeInputs_inv {s : State} (h : Inv s) : Inv (takeInputs s) := by
  obtain ⟨⟨hlegal, hc, hb, hbuf⟩, ⟨hset, hidle, hacc⟩, hsig⟩ := id h
  obtain he | ⟨p, rest, _, he⟩ := takeInputs_cases s <;> rw [he]
  · exact h
  · exact ⟨⟨hlegal, hostWrites_canonical _ hc, hostWrites_below _ hb, hbuf⟩,
      ⟨hset, hidle, fun hf => (hacc hf).imp_right (Nat.le_add_right_of_le ·)⟩, hsig⟩

/-- The bytes a drain stores lie inside RawFrame, at least one of them, and the mark is the present time (R75, R81). -/
theorem drain_inv {s : State} (h : Inv s) (base : Nat) (hrx : s.rx ≠ []) : Inv (drain base s).2 := by
  obtain ⟨⟨hlegal, hc, hb, hraw, hrawb, htx⟩, _, hsig⟩ := h
  obtain ⟨hfit, he⟩ | ⟨_, he⟩ := drain_cases base s <;> rw [he]
  · have hpos : 0 < s.rx.length := List.length_pos_of_ne_nil hrx
    refine ⟨⟨hlegal, hc, hb, Cells.canonical_writeList base _ hraw, Cells.below_writeList _ hrawb (by omega), htx⟩,
      ⟨by simp, by simp, fun _ => ⟨?_, Nat.le_refl _⟩⟩, hsig⟩
    show 1 ≤ base + s.rx.length
    omega
  · exact ⟨⟨hlegal, hc, hb, hraw, hrawb, htx⟩, ⟨by simp, fun _ => rfl, by simp⟩, hsig⟩

theorem poll_no_frame_inv {s s1 : State} {r : PollResult} (hr : r ≠ .frame) (hp : poll s = (r, s1)) (h : Inv s) :
    Inv s1 := by
  unfold poll at hp
  obtain ⟨he, _⟩ | ⟨he, _⟩ | ⟨hrx, base, _, he⟩ := pollAt_cases (elapsed s) s <;> rw [he] at hp
  · cases hp; exact h
  · cases hp; exact absurd rfl hr
  · have := drain_inv h base hrx
    rwa [hp] at this

/-- The end of a cycle restores the assembler and releases the bank (R79, R123). -/
theorem endCycle_inv {s : State} (hs : SpacesSound s) (hen : s.txEn = false) : Inv (endCycle s) :=
  ⟨hs, ⟨by simp, by simp, by simp⟩, hen, rfl⟩

/-- The invariant does not speak of the Outcome. -/
theorem report_inv {s : State} (o : ServiceOutcome) (h : Inv s) : Inv (report o s) := h

theorem step_inv {s t : State} (h : Inv s) (hstep : step s = .next t) : Inv t := by
  have hin := takeInputs_inv h
  obtain ⟨s1, hp, rfl⟩ | ⟨s1, hp, rfl⟩ | ⟨s1, s2, hp, hproc, rfl⟩ := step_cases hstep
  · exact report_inv _ (poll_no_frame_inv (by simp) hp hin)
  · exact report_inv _ (poll_no_frame_inv (by simp) hp hin)
  · obtain ⟨hs, _, hen, _⟩ := hin
    obtain rfl := poll_frame hp
    obtain ⟨hs2, hen2⟩ := process_spacesSound_txEn hproc hs hen
    exact endCycle_inv hs2 hen2

theorem resetWith_inv {cfg : Config} {bank : Bank} (hlegal : cfg.Legal) (hc : Cells.canonical bank = true)
    (hb : Cells.below bank cfg.n = true) : Inv (State.resetWith cfg bank) :=
  ⟨⟨hlegal, hc, hb, rfl, rfl, rfl, rfl⟩, ⟨nofun, fun _ => rfl, nofun⟩, rfl, rfl⟩

/-! ## Configuration and time -/

theorem step_cfg_now {s t : State} (h : step s = .next t) : t.cfg = s.cfg ∧ t.now = (takeInputs s).now := by
  obtain ⟨s1, hp, rfl⟩ | ⟨s1, hp, rfl⟩ | ⟨s1, s2, hp, hproc, rfl⟩ := step_cases h
  · obtain ⟨_, _, _, _, _, hcfg, hnow, _⟩ := poll_no_frame (by simp) hp
    simp [hcfg, hnow]
  · obtain ⟨_, _, _, _, _, hcfg, hnow, _⟩ := poll_no_frame (by simp) hp
    simp [hcfg, hnow]
  · obtain rfl := poll_frame hp
    obtain ⟨hcfg, _, _, _, _, _, hnow, _⟩ := process_engineUntouched hproc
    simp [hcfg, hnow]

end Sys2Proof.Machine

namespace Sys2Proof.Proofs

open Machine

/-- Settles O45: the invariant passes through the outside's moves, the poll and, if a frame settles, the cycle on it. -/
theorem stepKeepsInvariant : Obligations.StepKeepsInvariant := by
  unfold Obligations.StepKeepsInvariant
  exact fun _ _ => step_inv

/-- Settles O37: only the outside moves `now`, and it only adds to it. -/
theorem stepKeepsConfigurationAndTime : Obligations.StepKeepsConfigurationAndTime := by
  unfold Obligations.StepKeepsConfigurationAndTime
  intro s t h
  obtain ⟨hcfg, hnow⟩ := step_cfg_now h
  exact ⟨hcfg, hnow ▸ le_takeInputs_now s⟩

/-- Settles O46: the general reset by the fields of Inv, and the model's own reset from it. -/
theorem resetMeetsInvariant : Obligations.ResetMeetsInvariant := by
  unfold Obligations.ResetMeetsInvariant
  exact ⟨fun _ _ => resetWith_inv, resetWith_inv (by decide) rfl rfl⟩

/-- Settles O54: by the laws of the host's writes, in the order in which they stand in the poll. -/
theorem hostWritesReachTheBank : Obligations.HostWritesReachTheBank := by
  unfold Obligations.HostWritesReachTheBank
  refine fun s => ⟨takeInputs_nil, fun p polls hin => ?_⟩
  rw [takeInputs_cons hin]
  refine ⟨fun before after a v hw ha hlast => ?_, fun a ha => read_hostWrites_other _ _ ha, rfl⟩
  simp only [hw]
  exact read_hostWrites_last _ before after v ha hlast

end Sys2Proof.Proofs
end

section
/-! SUPPORT. The transmit handshake of the clock-level view (R24, R159 c, `notes/assumptions/18.md`): what is on offer, and
what a clock cycle adds to the transmit trace. -/

namespace Sys2Proof.Machine

/-! ## The byte on offer -/

theorem txByte_eq_some {c : ClockState} {b : Byte} : txByte c = some b ↔
    ∃ k o, c.phase = .push k o ∧ k < c.s.txLen.val ∧ b = Cells.read (w := 8) c.s.txf k := by
  unfold txByte
  cases c.phase with
  | push k o =>
    by_cases hk : k < c.s.txLen.val
    · simp [hk, eq_comm]
    · simp [hk]
  | _ => simp

theorem ports_tx_eq_some {i : ClockIn} {c : ClockState} {b : Byte} :
    (ports i c).tx = some b ↔ i.rst = false ∧ txByte c = some b := by
  cases hr : i.rst <;> simp [ports, hr]

theorem ports_tx_eq_none {i : ClockIn} {c : ClockState} :
    (ports i c).tx = none ↔ i.rst = true ∨ txByte c = none := by
  cases hr : i.rst <;> simp [ports, hr]

/-! ## A clock cycle with a byte on offer -/

section
variable {i : ClockIn} {c : ClockState} {k : Nat} {o : ServiceOutcome}
variable (hrst : i.rst = false) (hphase : c.phase = .push k o) (hk : k < c.s.txLen.val)
include hrst hphase hk

/-- While a byte is on offer, `hold` does not keep the clock cycle from making progress. -/
theorem tick_push : tick i c = advance i c := by
  have hoffer : (txByte c).isNone = false := by simp [txByte, hphase, hk]
  simp [tick, hrst, hphase, hoffer]

theorem tick_push_not_ready (hready : i.txReady = false) : tick i c = c := by
  rw [tick_push hrst hphase hk]
  simp [advance, hphase, hk, hready]

theorem tick_push_ready (hready : i.txReady = true) : tick i c =
    { s := txPushAll [Cells.read (w := 8) c.s.txf k] c.s,
      phase := if i.hold then .gap (k + 1) o else .push (k + 1) o } := by
  rw [tick_push hrst hphase hk]
  simp [advance, hphase, hk, hready]

end

/-! ## A clock cycle without a byte on offer -/

/-- The trace of `t` is that of `s` with no byte more (R22). -/
def PushesNoByte (s t : State) : Prop := ∃ ev, t.trace = s.trace ++ ev ∧ ∀ b, TxEvent.byte b ∉ ev

theorem PushesNoByte.of_trace_eq {s t : State} (h : t.trace = s.trace) : PushesNoByte s t := ⟨[], by simp [h], by simp⟩

theorem build_trace {body : List Byte} {s t : State} (h : build body s = .next t) : t.trace = s.trace := by
  unfold build at h
  split at h
  · cases h; rfl
  · cases h

theorem pollAt_trace (e : Nat) (s : State) : (pollAt e s).2.trace = s.trace := by
  obtain ⟨h, _⟩ | ⟨h, _⟩ | ⟨_, base, _, h⟩ := pollAt_cases e s <;> rw [h]
  · rfl
  · obtain ⟨_, hd⟩ | ⟨_, hd⟩ := drain_cases base s <;> rw [hd]

theorem clockPoll_trace (i : ClockIn) (s : State) : (clockPoll i s).s.trace = s.trace := by
  unfold clockPoll
  dsimp only
  split <;> rename_i s2 hp <;> exact (congrArg (·.2.trace) hp).symm.trans (pollAt_trace _ _)

/-- SETTLED pushes a byte only while one is on offer. -/
theorem advance_pushesNoByte {i : ClockIn} {c : ClockState} (hoffer : txByte c = none) :
    PushesNoByte c.s (advance i c).s := by
  unfold advance
  cases hphase : c.phase with
  | poll => exact .of_trace_eq rfl
  | check => refine .of_trace_eq ?_; dsimp only; split <;> rfl
  | read next left got o => cases left <;> exact .of_trace_eq rfl
  | write next left body o => cases left <;> exact .of_trace_eq rfl
  | build body o =>
    refine .of_trace_eq ?_
    dsimp only
    split
    · rename_i hb; exact build_trace hb
    · rfl
  | enable o =>
    cases hrs : c.s.cfg.rs485
    · exact .of_trace_eq (by simp)
    · exact ⟨[.enable true], by simp, by simp⟩
  | push k o =>
    have hk : ¬ k < c.s.txLen.val := fun hk => by simp [txByte, hphase, hk] at hoffer
    exact .of_trace_eq (by simp [hk])
  | gap k o => exact .of_trace_eq rfl
  | wait o =>
    cases hrs : c.s.cfg.rs485
    · exact .of_trace_eq (by simp)
    · cases hdone : i.txDone
      · exact .of_trace_eq (by simp)
      · exact ⟨[.complete, .enable false], by simp, by simp⟩
  | finish o => exact .of_trace_eq rfl

theorem tick_pushesNoByte {i : ClockIn} {c : ClockState} (hoffer : (ports i c).tx = none) :
    PushesNoByte c.s (tick i c).s := by
  unfold tick
  split
  · exact .of_trace_eq rfl
  · rename_i hrst
    split
    · exact .of_trace_eq (clockPoll_trace i c.s)
    · split
      · exact .of_trace_eq rfl
      · exact advance_pushesNoByte ((ports_tx_eq_none.mp hoffer).resolve_left hrst)

end Sys2Proof.Machine

namespace Sys2Proof.Proofs

open Machine

/-- Settles O53: a byte on offer is `tx[k]` of phase push `k`, and no other phase adds a byte to the trace. -/
theorem clockHandsOverEachByteOnce : Obligations.ClockHandsOverEachByteOnce := by
  unfold Obligations.ClockHandsOverEachByteOnce
  refine fun i c => ⟨fun b hb => ?_, tick_pushesNoByte⟩
  obtain ⟨hrst, hoffer⟩ := ports_tx_eq_some.mp hb
  obtain ⟨k, o, hphase, hk, rfl⟩ := txByte_eq_some.mp hoffer
  refine ⟨k, o, hphase, hk, rfl, tick_push_not_ready hrst hphase hk, fun hready => ?_⟩
  rw [tick_push_ready hrst hphase hk hready]
  refine ⟨rfl, ?_⟩
  cases i.hold
  · exact .inl rfl
  · exact .inr rfl

end Sys2Proof.Proofs
end

section
/-! SUPPORT. The family `20_memory.md`: what an accepted request answers and leaves in the bank (R101, R102, R103, R106),
and that a read returns the latest write (R41). -/

namespace Sys2Proof.Machine

/-! ## The data words of a write-multiple, by position (R54) -/

theorem getD_wordsOf : ∀ (bs : List Byte) (i : Nat), 2 * i + 1 < bs.length →
    (wordsOf bs).getD i 0#16 = be16 (bs.getD (2 * i) 0#8) (bs.getD (2 * i + 1) 0#8)
  | [], _, h => by simp at h
  | [_], _, h => by simp at h
  | _ :: _ :: _, 0, _ => rfl
  | _ :: _ :: t, i + 1, h => getD_wordsOf t i (by simp only [List.length_cons] at h; omega)

theorem getD_dataWords {count i : Nat} {rest : List Byte} (hi : i < count) (hrest : 1 + 2 * count ≤ rest.length) :
    (dataWords count rest).getD i 0#16 = be16 (rest.getD (1 + 2 * i) 0#8) (rest.getD (2 + 2 * i) 0#8) := by
  have hbyte : ∀ j, j < 2 * count → ((rest.drop 1).take (2 * count)).getD j 0#8 = rest.getD (1 + j) 0#8 := fun j hj => by
    rw [List.getD_eq_getElem?_getD, List.getElem?_take_of_lt hj, List.getElem?_drop, List.getD_eq_getElem?_getD]
  rw [dataWords, getD_wordsOf _ _ (by simp only [List.length_take, List.length_drop]; omega),
    hbyte _ (by omega), hbyte _ (by omega), show 1 + (2 * i + 1) = 2 + 2 * i by omega]

/-! ## The meaning of a request that VALIDATE lets pass -/

@[simp] theorem addressed_self (s : State) (k : Host.Outcome State Fault Refusal) : addressed s.cfg.slave s k = k :=
  if_pos rfl

theorem exec_rhr_accepted {s : State} {start count : Word} (surplus : List Byte) (h1 : 1 ≤ count.toNat)
    (h2 : count.toNat ≤ 125) (hn : start.toNat + count.toNat ≤ s.cfg.n) :
    exec (.rhr s.cfg.slave start count surplus) s =
      respond (rhrRspBody s.cfg.slave (s.readRegs start.toNat count.toNat)) (.frameProcessed (requestLen surplus)) s := by
  simp only [exec, execRhr, addressed_self, validate_read_none.mpr ⟨h1, h2, hn⟩]

theorem exec_wsr_accepted {s : State} {addr : Word} (value : Word) (surplus : List Byte) (hn : addr.toNat < s.cfg.n) :
    exec (.wsr s.cfg.slave addr value surplus) s =
      respond (wsrRspBody s.cfg.slave addr value) (.frameProcessed (requestLen surplus))
        (s.writeRegs addr.toNat [value]) := by
  simp only [exec, execWsr, addressed_self, validate_write1_none.mpr hn]

theorem exec_wmr_accepted {s : State} {start count : Word} {rest : List Byte} (h1 : 1 ≤ count.toNat)
    (h2 : count.toNat ≤ 123) (hn : start.toNat + count.toNat ≤ s.cfg.n)
    (hlen : 9 + 2 * count.toNat ≤ requestLen rest) :
    exec (.wmr s.cfg.slave start count rest) s =
      respond (wmrRspBody s.cfg.slave start count) (.frameProcessed (requestLen rest))
        (s.writeRegs start.toNat (dataWords count.toNat rest)) := by
  simp only [exec, execWmr, addressed_self, validate_writeN_none.mpr ⟨h1, h2, hn, hlen⟩]

/-! ## The bank after a write -/

/-- A sent response leaves the bank as the register accesses before it have left it. -/
theorem respond_regs {body : List Byte} {o : ServiceOutcome} {s t : State} (h : respond body o s = .next t) :
    t.regs = s.regs := by
  obtain ⟨_, _, _, hregs, _⟩ := respond_next h
  exact hregs

theorem read_regs_of_exec_wsr {s t : State} {addr value : Word} {surplus : List Byte} (hn : addr.toNat < s.cfg.n)
    (h : exec (.wsr s.cfg.slave addr value surplus) s = .next t) : Cells.read t.regs addr.toNat = value := by
  rw [exec_wsr_accepted value surplus hn] at h
  rw [respond_regs h, writeRegs_regs]
  exact Cells.read_write_same _ _ _

theorem read_regs_of_exec_wmr {s t : State} {start count : Word} {rest : List Byte} (h1 : 1 ≤ count.toNat)
    (h2 : count.toNat ≤ 123) (hn : start.toNat + count.toNat ≤ s.cfg.n) (hrest : 1 + 2 * count.toNat ≤ rest.length)
    (h : exec (.wmr s.cfg.slave start count rest) s = .next t) {i : Nat} (hi : i < count.toNat) :
    Cells.read t.regs (start.toNat + i) = be16 (rest.getD (1 + 2 * i) 0#8) (rest.getD (2 + 2 * i) 0#8) := by
  have hlen : 9 + 2 * count.toNat ≤ requestLen rest := by rw [requestLen]; omega
  have hi' : i < (dataWords count.toNat rest).length := by rwa [length_dataWords hlen]
  rw [exec_wmr_accepted h1 h2 hn hlen] at h
  rw [respond_regs h, writeRegs_regs, Cells.read_writeList_inside _ _ _ hi', ← getD_dataWords hi hrest,
    List.getD_eq_getElem _ _ hi']

/-! ## The answer to a read of one register -/

theorem rhrRspBody_readRegs_one (slave : Byte) (s : State) (a : Nat) : rhrRspBody slave (s.readRegs a 1) =
    [slave, 0x03#8, 0x02#8, hi (Cells.read s.regs a), lo (Cells.read s.regs a)] := rfl

theorem exec_rhr_one_answers {s : State} {addr : Word} (surplus : List Byte) (hs : CanSend s)
    (hn : addr.toNat < s.cfg.n) : ∃ t, exec (.rhr s.cfg.slave addr 1#16 surplus) s = .next t ∧
      Answered s t (stamp [s.cfg.slave, 0x03#8, 0x02#8, hi (Cells.read s.regs addr.toNat),
        lo (Cells.read s.regs addr.toNat)]) (.frameProcessed (8 + surplus.length)) := by
  obtain ⟨t, ht, ha, _, _⟩ := respond_answers (body := rhrRspBody s.cfg.slave (s.readRegs addr.toNat 1))
    (.frameProcessed (requestLen surplus)) s (by simp [length_rhrRspBody]) hs
  rw [rhrRspBody_readRegs_one] at ha
  exact ⟨t, (exec_rhr_accepted (count := 1#16) surplus (by decide) (by decide) hn).trans ht, ha⟩

end Sys2Proof.Machine

namespace Sys2Proof.Proofs

open Machine

/-- Settles O43: a read answers what the register reads as, which each of the three writers leaves at the value it
wrote. -/
theorem readReturnsTheLatestWrite : Obligations.ReadReturnsTheLatestWrite := by
  unfold Obligations.ReadReturnsTheLatestWrite
  intro s u addr y hn hcfg hsend reads
  have answers {after : State} {value : Word} (hwrote : Cells.read after.regs addr.toNat = value) :
      reads after value := fun hsame => by
    obtain rfl : Cells.read u.regs addr.toNat = value := hsame.trans hwrote
    rw [← hcfg] at hn ⊢
    exact exec_rhr_one_answers y hsend hn
  refine ⟨fun t value x h => ?wsr, fun t start count rest h1 h2 hbank hrest hlo hhi h => ?wmr,
    fun p polls before after value hin hwrites hlast => ?host⟩
  case wsr => exact answers (read_regs_of_exec_wsr hn h)
  case wmr =>
    have hread := read_regs_of_exec_wmr h1 h2 hbank hrest h (i := addr.toNat - start.toNat) (by omega)
    rw [Nat.add_sub_cancel' hlo] at hread
    exact answers hread
  case host =>
    refine answers ?_
    rw [takeInputs_cons hin, hwrites]
    exact read_hostWrites_last _ before after value hn hlast

end Sys2Proof.Proofs
end

section
/-! SUPPORT. The family `30_encoding.md`: the two decoders invert `encode` (R45, R47 to R56), what PARSE accepts is an
encoding, and the frames that the encoding rules set apart (R50, R55, R57, R58). -/

namespace Sys2Proof.Machine

/-! ## The stamp and CRC.CHECK (R69, R70) -/

@[simp] theorem crcCheck_stamp (body : List Byte) : crcCheck (stamp body) = true := by simp [crcCheck]

theorem stamp_take_of_crcCheck {f : List Byte} (h : crcCheck f = true) : stamp (f.take (f.length - 2)) = f := by
  rw [stamp, ← eq_of_beq h, List.take_append_drop]

theorem two_le_length_encodeBody (i : Instr) : 2 ≤ (encodeBody i).length := by
  cases i <;> simp [encodeBody, twoFieldBody, rhrRspBody]

/-- On an encoded frame PARSE has only the steps after the CRC left (R83). -/
theorem decodeRequest_encode (slave : Byte) (i : Instr) :
    decodeRequest slave (encode i) = decodeRequestBody slave (encodeBody i) := by
  have h4 : ¬ (encodeBody i).length + 2 < 4 := by have := two_le_length_encodeBody i; omega
  simp [decodeRequest, encode, h4]

theorem decodeResponse_encode (i : Instr) : decodeResponse (encode i) = decodeResponseBody (encodeBody i) := by
  have h4 : ¬ (encodeBody i).length + 2 < 4 := by have := two_le_length_encodeBody i; omega
  simp [decodeResponse, encode, h4]

/-! ## The request rows, decoded from their bodies (R47 to R49, R54, R56) -/

section
variable (slave : Byte) (a b : Word) (after : List Byte)

theorem decodeRequestBody_rhr :
    decodeRequestBody slave (twoFieldBody slave fnRead a b after) = .ok (.rhr slave a b after) := by
  simp [decodeRequestBody, twoFieldBody, supported]

theorem decodeRequestBody_wsr :
    decodeRequestBody slave (twoFieldBody slave fnWrite1 a b after) = .ok (.wsr slave a b after) := by
  simp [decodeRequestBody, twoFieldBody, supported, fnRead, fnWrite1]

theorem decodeRequestBody_wmr :
    decodeRequestBody slave (twoFieldBody slave fnWriteN a b after) = .ok (.wmr slave a b after) := by
  simp [decodeRequestBody, twoFieldBody, supported, fnRead, fnWrite1, fnWriteN]

theorem decodeRequestBody_illfn {fn : Byte} (payload : List Byte) (h : supported fn = false) :
    decodeRequestBody slave (slave :: fn :: payload) = .ok (.illfn slave fn payload) := by
  simp [decodeRequestBody, h]

end

theorem decodeRequest_encode_of_wellFormed {i : Instr} (hreq : i.isRequest = true) (hwf : i.wellFormed = true) :
    decodeRequest i.slave (encode i) = .ok i := by
  rw [decodeRequest_encode]
  cases i with
  | rhr sl start count surplus => exact decodeRequestBody_rhr sl start count surplus
  | wsr sl addr value surplus => exact decodeRequestBody_wsr sl addr value surplus
  | wmr sl start count rest => exact decodeRequestBody_wmr sl start count rest
  | illfn sl fn payload =>
    simp only [Instr.wellFormed, Bool.and_eq_true, Bool.not_eq_true'] at hwf
    obtain ⟨hfn, _⟩ := hwf
    exact decodeRequestBody_illfn sl payload hfn
  | rhrRsp => simp [Instr.isRequest] at hreq
  | wsrRsp => simp [Instr.isRequest] at hreq
  | wmrRsp => simp [Instr.isRequest] at hreq
  | excRsp => simp [Instr.isRequest] at hreq

/-! ## The function byte of an exception response (R53, R58) -/

theorem msb_or_0x80 (fn : Byte) : (fn ||| 0x80#8).msb = true := by
  rw [BitVec.msb_or, show (0x80#8).msb = true by decide, Bool.or_true]

/-- Setting bit 7 changes nothing where it is set. -/
theorem or_0x80_of_msb {fn : Byte} (h : fn.msb = true) : fn ||| 0x80#8 = fn := by
  rw [show 0x80#8 = BitVec.twoPow 8 7 by decide]
  ext k hk
  by_cases h7 : k = 7
  · subst h7; simpa [BitVec.msb_eq_getLsbD_last] using h
  · simp [BitVec.getElem_twoPow, h7]

/-- None of the three supported codes has bit 7 set. -/
theorem supported_eq_false_of_msb {fn : Byte} (h : fn.msb = true) : supported fn = false := by
  rw [← Bool.not_eq_true, supported_iff]
  rintro (rfl | rfl | rfl) <;> exact absurd h (by decide)

/-! ## The response rows, decoded from their bodies (R50 to R53) -/

/-- Up to 125 registers the byte count does not wrap (R50). -/
theorem decodeResponseBody_rhrRsp (slave : Byte) {values : List Word} (h1 : 1 ≤ values.length)
    (h2 : values.length ≤ 125) : decodeResponseBody (rhrRspBody slave values) = .ok (.rhrRsp slave values) := by
  have hcount : 2 * values.length % 256 = 2 * values.length := Nat.mod_eq_of_lt (by omega)
  have hmin : 2 ≤ 2 * values.length := by omega
  have hmax : 2 * values.length ≤ 2 * 125 := by omega
  simp [decodeResponseBody, BitVec.msb_eq_decide, rhrRspBody, fnRead, hcount, hmin, hmax]

theorem decodeResponseBody_wsrRsp (slave : Byte) (addr value : Word) :
    decodeResponseBody (wsrRspBody slave addr value) = .ok (.wsrRsp slave addr value) := by
  simp [decodeResponseBody, BitVec.msb_eq_decide, wsrRspBody, twoFieldBody, fnRead, fnWrite1]

theorem decodeResponseBody_wmrRsp (slave : Byte) (start count : Word) :
    decodeResponseBody (wmrRspBody slave start count) = .ok (.wmrRsp slave start count) := by
  simp [decodeResponseBody, BitVec.msb_eq_decide, wmrRspBody, twoFieldBody, fnRead, fnWrite1, fnWriteN]

theorem decodeResponseBody_excRsp (slave : Byte) {fn : Byte} (code : ExcCode) (h : fn.msb = true) :
    decodeResponseBody (excRspBody slave fn code) = .ok (.excRsp slave fn code) := by
  simp [decodeResponseBody, excRspBody, or_0x80_of_msb h, h]

theorem decodeResponse_encode_of_wellFormed {i : Instr} (hrsp : i.isRequest = false) (hwf : i.wellFormed = true) :
    decodeResponse (encode i) = .ok i := by
  rw [decodeResponse_encode]
  cases i with
  | rhr => simp [Instr.isRequest] at hrsp
  | wsr => simp [Instr.isRequest] at hrsp
  | wmr => simp [Instr.isRequest] at hrsp
  | illfn => simp [Instr.isRequest] at hrsp
  | rhrRsp sl values =>
    simp only [Instr.wellFormed, Bool.and_eq_true, decide_eq_true_eq] at hwf
    obtain ⟨h1, h2⟩ := hwf
    exact decodeResponseBody_rhrRsp sl h1 h2
  | wsrRsp sl addr value => exact decodeResponseBody_wsrRsp sl addr value
  | wmrRsp sl start count => exact decodeResponseBody_wmrRsp sl start count
  | excRsp sl fn code => exact decodeResponseBody_excRsp sl code hwf

/-! ## What PARSE accepts is an encoding (R45, R54) -/

theorem encodeBody_of_decodeRequestBody {slave : Byte} {body : List Byte} {i : Instr}
    (h : decodeRequestBody slave body = .ok i) : encodeBody i = body := by
  obtain ⟨_, _, _, _, _, rfl, rfl⟩ | ⟨_, _, _, _, _, rfl, rfl⟩ | ⟨_, _, _, _, _, rfl, rfl⟩ | ⟨_, _, rfl, _, rfl⟩ :=
    decodeRequestBody_ok h <;> simp [encodeBody, twoFieldBody]

theorem encode_of_decodeRequest {slave : Byte} {f : List Byte} {i : Instr} (h : decodeRequest slave f = .ok i) :
    encode i = f := by
  obtain ⟨_, hcrc, hbody⟩ := decodeRequest_ok h
  rw [encode, encodeBody_of_decodeRequestBody hbody, stamp_take_of_crcCheck hcrc]

/-- A request PARSE accepts is well-formed if its frame fits RawFrame (R46). -/
theorem wellFormed_of_decodeRequest {slave : Byte} {f : List Byte} {i : Instr} (h : decodeRequest slave f = .ok i)
    (hlen : f.length ≤ 256) : i.wellFormed = true := by
  obtain ⟨_, _, hbody⟩ := decodeRequest_ok h
  rw [← encode_of_decodeRequest h, encode, length_stamp] at hlen
  obtain ⟨_, _, _, _, _, _, rfl⟩ | ⟨_, _, _, _, _, _, rfl⟩ | ⟨_, _, _, _, _, _, rfl⟩ | ⟨_, _, _, hfn, rfl⟩ :=
    decodeRequestBody_ok hbody
  case inr.inr.inr =>
    simp only [encodeBody, List.length_cons] at hlen
    simp only [Instr.wellFormed, hfn, maxFrame, Bool.not_false, Bool.true_and, decide_eq_true_eq]
    omega
  all_goals
    simp only [encodeBody, length_twoFieldBody] at hlen
    exact decide_eq_true (show 8 + _ ≤ 256 by omega)

/-! ## The data words by their place in the frame (R54) -/

theorem getD_encode_wmr (slave : Byte) (start count : Word) {rest : List Byte} {k : Nat} (hk : k < rest.length) :
    (encode (.wmr slave start count rest)).getD (6 + k) 0#8 = rest.getD k 0#8 := by
  simp [encode, encodeBody, stamp, twoFieldBody, hk, Nat.add_comm 6 k, List.getElem?_append_left]

/-! ## The meaning of a request for another slave (R57, `notes/assumptions/15.md`) -/

theorem addressed_foreign {slave : Byte} {s : State} (h : slave ≠ s.cfg.slave)
    (k : Host.Outcome State Fault Refusal) : addressed slave s k = .next (dropFrame .foreign s) := if_neg h

theorem exec_foreign {i : Instr} {s : State} (hreq : i.isRequest = true) (h : i.slave ≠ s.cfg.slave) :
    exec i s = .next (dropFrame .foreign s) := by
  cases i with
  | rhr => exact addressed_foreign h _
  | wsr => exact addressed_foreign h _
  | wmr => exact addressed_foreign h _
  | illfn => exact addressed_foreign h _
  | rhrRsp => simp [Instr.isRequest] at hreq
  | wsrRsp => simp [Instr.isRequest] at hreq
  | wmrRsp => simp [Instr.isRequest] at hreq
  | excRsp => simp [Instr.isRequest] at hreq

/-! ## The step after a candidate frame is placed (R55, `notes/assumptions/12.md`) -/

/-- The state in which the cycle on a placed frame starts: after the quiet poll that settles it. -/
def settledOn (f : List Byte) (s : State) : State :=
  { takeInputs (withCandidate f s) with fsm := .settled, bankBusy := true }

theorem step_withCandidate (f : List Byte) (s : State) : step (withCandidate f s) = cycle (settledOn f s) := by
  have hin : takeInputs (withCandidate f s) = _ := takeInputs_cons rfl
  refine service_settles (poll_settles ?_ ?_ ?_)
  · simp [withCandidate]
  · rw [hin]; rfl
  · rw [hin]; simp [withCandidate, quietPoll]

theorem frame_settledOn {f : List Byte} (s : State) (h : f.length ≤ 256) : (settledOn f s).frame = f := by
  have hlen : f.length % 257 = f.length := Nat.mod_eq_of_lt (by omega)
  simp [settledOn, State.frame, withCandidate, List.take_of_length_le h, hlen]

theorem length_tableFrame_le (slave : Byte) (nbits w : Nat) : (tableFrame slave nbits w).length ≤ 256 := by
  have hcut : tablePayloadLen nbits w ≤ 252 := Nat.min_le_left _ _
  simp only [tableFrame, length_stamp, List.length_cons, List.length_map, List.length_range]
  omega

end Sys2Proof.Machine

namespace Sys2Proof.Proofs

open Machine

/-- Settles O2: the stamp passes CRC.CHECK, and each request row's body decodes to its row. -/
theorem requestDecodeEncodeRoundTrip : Obligations.RequestDecodeEncodeRoundTrip := by
  unfold Obligations.RequestDecodeEncodeRoundTrip
  exact fun _ => decodeRequest_encode_of_wellFormed

/-- Settles O3: the stamp passes CRC.CHECK, and each response row's body decodes to its row. -/
theorem responseDecodeEncodeRoundTrip : Obligations.ResponseDecodeEncodeRoundTrip := by
  unfold Obligations.ResponseDecodeEncodeRoundTrip
  exact fun _ => decodeResponse_encode_of_wellFormed

/-- Settles O4: an accepted body is the body of its request, and the two bytes after it are its CRC. -/
theorem acceptedRequestIsItsEncoding : Obligations.AcceptedRequestIsItsEncoding := by
  unfold Obligations.AcceptedRequestIsItsEncoding
  exact fun _ _ _ hlen h =>
    ⟨encode_of_decodeRequest h, wellFormed_of_decodeRequest h hlen, decodeRequest_isRequest h⟩

/-- Settles O6: the frame is the encoding of the write-multiple, whose bytes from offset 6 on are its `rest`. -/
theorem dataWordsStandByPosition : Obligations.DataWordsStandByPosition := by
  unfold Obligations.DataWordsStandByPosition
  intro slave sl f start count rest h hlen
  obtain rfl := encode_of_decodeRequest h
  have hlen' : 9 + 2 * count.toNat ≤ requestLen rest := by
    simp only [encode, encodeBody, length_stamp, length_twoFieldBody] at hlen
    rw [requestLen]; omega
  have hrest : 1 + 2 * count.toNat ≤ rest.length := by rw [requestLen] at hlen'; omega
  refine ⟨length_dataWords hlen', fun j hj => ?_⟩
  have hbyte (k : Nat) (hk : k < 1 + 2 * count.toNat) := getD_encode_wmr sl start count (hk.trans_le hrest)
  rw [getD_dataWords hj hrest, ← hbyte _ (by omega), ← hbyte _ (by omega)]
  congr 2 <;> omega

/-- Settles O7: with bit 7 set the function byte is no supported code, and setting the bit again changes nothing. -/
theorem echoedExceptionParsesAsRequest : Obligations.EchoedExceptionParsesAsRequest := by
  unfold Obligations.EchoedExceptionParsesAsRequest
  refine fun slave fn code => ⟨?parses, ?same⟩
  case parses =>
    rw [decodeRequest_encode]
    exact decodeRequestBody_illfn slave [excByte code] (supported_eq_false_of_msb (msb_or_0x80 fn))
  case same => simp only [encode, encodeBody, excRspBody, or_0x80_of_msb (msb_or_0x80 fn)]

/-- Settles O1: by evaluation of the two decoders on the eight frames. -/
theorem writtenFramesDecode : Obligations.WrittenFramesDecode := by
  unfold Obligations.WrittenFramesDecode
  decide +kernel

/-- Settles O18: the meaning of each request row tests the address first. -/
theorem foreignRequestIsDropped : Obligations.ForeignRequestIsDropped := by
  unfold Obligations.ForeignRequestIsDropped
  exact fun _ _ => exec_foreign

/-- Settles O23: 126 registers make a frame of 257 bytes. -/
theorem overlongReadResponseStops : Obligations.OverlongReadResponseStops := by
  unfold Obligations.OverlongReadResponseStops
  exact fun s slave values h => build_too_long s (by rw [length_rhrRspBody]; omega)

/-- Settles O31: the quiet poll settles the placed frame, which is not cut, and PARSE accepts it. -/
theorem fetchWordIsRunNext : Obligations.FetchWordIsRunNext := by
  unfold Obligations.FetchWordIsRunNext
  intro s nbits w i h
  have hframe := frame_settledOn s (length_tableFrame_le s.cfg.slave nbits w)
  refine ⟨settledOn (tableFrame s.cfg.slave nbits w) s, ?_, rfl, rfl, rfl, rfl, rfl, hframe⟩
  exact (step_withCandidate _ s).trans (cycle_ok (by rw [hframe]; exact h))

end Sys2Proof.Proofs
end

section
/-! SUPPORT. The family `40_crc.md`: CRC.SHIFT is linear over exclusive-or and a plain shift while the bits it moves out
are 0 (R65), so eight shifts split into a byte shift and a table entry (R66, R71), and the two stamped bytes clear the
accumulator (R69, R70). -/

namespace Sys2Proof.Machine

/-! ## CRC.SHIFT (R65) -/

theorem getLsbD_0xA001 : ∀ j < 16, (0xA001#16).getLsbD j = (j == 15 || j == 13 || j == 0) := by decide

theorem crcShift_of_odd {acc : Word} (h : acc.getLsbD 0 = true) : crcShift acc = acc >>> 1 ^^^ 0xA001#16 := if_pos h

theorem crcShift_of_even {acc : Word} (h : acc.getLsbD 0 = false) : crcShift acc = acc >>> 1 :=
  if_neg (ne_true_of_eq_false h)

theorem getLsbD_crcShift (acc : Word) {j : Nat} (hj : j < 16) :
    (crcShift acc).getLsbD j = (acc.getLsbD (j + 1) ^^ (acc.getLsbD 0 && (j == 15 || j == 13 || j == 0))) := by
  cases h : acc.getLsbD 0 with
  | false => simp [crcShift_of_even h, Nat.add_comm 1 j]
  | true => simp [crcShift_of_odd h, getLsbD_0xA001 j hj, Nat.add_comm 1 j]

theorem crcShift_xor (a b : Word) : crcShift (a ^^^ b) = crcShift a ^^^ crcShift b := by
  apply BitVec.eq_of_getLsbD_eq
  intro j hj
  simp only [getLsbD_crcShift _ hj, BitVec.getLsbD_xor, Bool.and_xor_distrib_right, Bool.xor_assoc,
    Bool.xor_left_comm]

/-! ## CRC.BYTE, by eight shifts and by the table (R66, R71) -/

theorem crcShifts_xor (k : Nat) (a b : Word) : crcShifts k (a ^^^ b) = crcShifts k a ^^^ crcShifts k b := by
  induction k generalizing a b with
  | zero => rfl
  | succ k ih => simp only [crcShifts, crcShift_xor, ih]

/-- While only zeros are shifted out, CRC.SHIFT is a plain shift. -/
theorem crcShifts_of_low_zero {k : Nat} {acc : Word} (h : ∀ j < k, acc.getLsbD j = false) :
    crcShifts k acc = acc >>> k := by
  induction k generalizing acc with
  | zero => simp [crcShifts]
  | succ k ih =>
    have hlow : ∀ j < k, (acc >>> 1).getLsbD j = false := fun j hj => by
      simpa [Nat.add_comm 1 j] using h (j + 1) (by omega)
    rw [crcShifts, crcShift_of_even (h 0 (by omega)), ih hlow, ← BitVec.shiftRight_add, Nat.add_comm 1 k]

theorem crcShifts_zero (k : Nat) : crcShifts k 0#16 = 0#16 := by
  rw [crcShifts_of_low_zero fun _ _ => BitVec.getLsbD_zero, BitVec.zero_ushiftRight]

theorem getElem_lo (acc : Word) {j : Nat} (hj : j < 8) : (lo acc)[j] = acc[j] := by
  have h16 : j < 16 := by omega
  simp [lo, h16]

/-- Without its low byte the accumulator has only zeros to shift out. -/
theorem crcShifts_high_byte (acc : Word) : crcShifts 8 (acc ^^^ (lo acc).setWidth 16) = acc >>> 8 := by
  rw [crcShifts_of_low_zero]
  · apply BitVec.eq_of_getLsbD_eq
    intro j hj
    simp
  · intro j hj
    have h16 : j < 16 := by omega
    simp [getElem_lo, hj, h16]

theorem crcByteByTable_eq (acc : Word) (b : Byte) : crcByteByTable acc b = crcByte acc b := by
  calc (acc >>> 8) ^^^ crcShifts 8 (0#16 ^^^ (lo acc ^^^ b).setWidth 16)
      = crcShifts 8 (acc ^^^ (lo acc).setWidth 16) ^^^ crcShifts 8 ((lo acc ^^^ b).setWidth 16) := by
        rw [crcShifts_high_byte, BitVec.zero_xor]
    _ = crcShifts 8 (acc ^^^ b.setWidth 16) := by
        rw [← crcShifts_xor, BitVec.setWidth_xor, BitVec.xor_assoc, ← BitVec.xor_assoc ((lo acc).setWidth 16),
          BitVec.xor_self, BitVec.zero_xor]

/-! ## The two stamped bytes clear the accumulator (R70) -/

/-- Absorbing its own low byte leaves the high byte: the table entry is that of the byte 0. -/
theorem crcByte_lo (acc : Word) : crcByte acc (lo acc) = acc >>> 8 := by
  rw [← crcByteByTable_eq, crcByteByTable, BitVec.xor_self, crcTableEntry, crcByte]
  simp [crcShifts_zero]

theorem setWidth_hi (acc : Word) : (hi acc).setWidth 16 = acc >>> 8 := by
  apply BitVec.eq_of_toNat_eq
  have := acc.isLt
  simp only [BitVec.toNat_setWidth, hi_toNat, BitVec.toNat_ushiftRight, Nat.shiftRight_eq_div_pow]
  omega

theorem crcByte_shifted_hi (acc : Word) : crcByte (acc >>> 8) (hi acc) = 0#16 := by
  rw [crcByte, setWidth_hi, BitVec.xor_self, crcShifts_zero]

theorem crc16_stamp (m : List Byte) : crc16 (stamp m) = 0#16 := by
  have hcut : stamp m = (m ++ [lo (crc16 m)]) ++ [hi (crc16 m)] := by simp [stamp, crcWire]
  rw [hcut, crc16_append, crc16_append, crcByte_lo, crcByte_shifted_hi]

/-! ## CRC.CHECK, by position (R69) -/

theorem drop_length_sub_two {f : List Byte} (h : 2 ≤ f.length) :
    f.drop (f.length - 2) = [f.getD (f.length - 2) 0#8, f.getD (f.length - 1) 0#8] := by
  have hlast : f.length - 2 + 1 = f.length - 1 := by omega
  have hend : f.length - 1 + 1 = f.length := by omega
  rw [List.drop_eq_getElem_cons (by omega), hlast, List.drop_eq_getElem_cons (by omega), hend, List.drop_length,
    List.getD_eq_getElem _ _ (by omega), List.getD_eq_getElem _ _ (by omega)]

theorem crcCheck_iff {f : List Byte} (h : 2 ≤ f.length) :
    crcCheck f = true ↔ f.getD (f.length - 2) 0#8 = lo (crc16 (f.take (f.length - 2))) ∧
      f.getD (f.length - 1) 0#8 = hi (crc16 (f.take (f.length - 2))) := by
  rw [crcCheck, beq_iff_eq, drop_length_sub_two h, crcWire, List.cons.injEq, List.cons.injEq, and_iff_left rfl]

end Sys2Proof.Machine

namespace Sys2Proof.Proofs

open Machine

/-- Settles O8: the sequence is stamped, and each stamped byte meets its own value in the accumulator. -/
theorem stampedSequenceVerifies : Obligations.StampedSequenceVerifies := by
  unfold Obligations.StampedSequenceVerifies
  exact fun m => ⟨crcCheck_stamp m, crc16_stamp m⟩

/-- Settles O10: by linearity the eight shifts act on the high byte, where they are a plain shift, and on the low byte,
where they are the table entry, apart. -/
theorem crcTableRealisationAgrees : Obligations.CrcTableRealisationAgrees := by
  unfold Obligations.CrcTableRealisationAgrees
  exact crcByteByTable_eq

/-- Settles O9: what CRC.CHECK cuts off the frame is its last two bytes. -/
theorem crcCheckComparesLowThenHigh : Obligations.CrcCheckComparesLowThenHigh := by
  unfold Obligations.CrcCheckComparesLowThenHigh
  exact fun f h => crcCheck_iff (by omega)

/-- Settles O11: bit 16 of the operand, which would come to bit 15, is 0. -/
theorem crcShiftMovesEveryBit : Obligations.CrcShiftMovesEveryBit := by
  unfold Obligations.CrcShiftMovesEveryBit
  intro acc j hj
  have htop : (if j = 15 then false else acc.getLsbD (j + 1)) = acc.getLsbD (j + 1) := by
    split
    · next h => rw [h, BitVec.getLsbD_of_ge _ _ le_rfl]
    · rfl
  rw [htop, getLsbD_crcShift acc hj]

end Sys2Proof.Proofs
end

section
/-! SUPPORT. The family `41_frame_assembler.md`: each row of POLL's table as an equation (R73 to R78, R82), the service
step of the rows that settle no frame, and a frame that arrives in pieces (R75, R153). -/

namespace Sys2Proof.Machine

/-! ## The bytes held and the bytes drained behind them (R74, R75, R81) -/

/-- The bytes behind which a poll drains: those of the candidate frame, and none in IDLE (R74). -/
def State.held (s : State) : List Byte := if s.fsm = .idle then [] else s.frame

theorem held_of_idle {s : State} (h : s.fsm = .idle) : s.held = [] := if_pos h

theorem held_of_accumulating {s : State} (h : s.fsm = .accumulating) : s.held = s.frame := if_neg (by simp [h])

@[simp] theorem frame_takeInputs (s : State) : (takeInputs s).frame = s.frame :=
  frame_congr (takeInputs_raw s) (takeInputs_len s)

@[simp] theorem held_takeInputs (s : State) : (takeInputs s).held = s.held := by
  simp only [State.held, takeInputs_fsm, frame_takeInputs]

/-- The state after a poll whose bytes fit: they stand behind those held, and the timer starts anew (R74, R75). -/
def State.absorb (s : State) (h : s.held.length + s.rx.length < 257) : State :=
  { s with raw := Cells.writeList (w := 8) s.raw s.held.length s.rx, len := ⟨s.held.length + s.rx.length, h⟩,
           tMark := s.now, fsm := .accumulating, rx := [] }

theorem readList_raw_held (s : State) : Cells.readList (w := 8) s.raw 0 s.held.length = s.held := by
  unfold State.held
  split
  · rfl
  · rw [length_frame]; rfl

theorem frame_absorb {s : State} (h : s.held.length + s.rx.length < 257) : (s.absorb h).frame = s.held ++ s.rx :=
  (Cells.readList_writeList_append s.raw s.held.length s.rx).trans (by rw [readList_raw_held])

/-! ## The rows of POLL that settle no frame (R82) -/

theorem poll_quiet {s : State} (hrx : s.rx = [])
    (h : s.fsm = .idle ∨ s.fsm = .accumulating ∧ s.now - s.tMark < s.cfg.silence) : poll s = (.none, s) := by
  obtain hf | ⟨hf, he⟩ := h
  · simp [poll, pollAt, hf, hrx]
  · simp [poll, pollAt, elapsed, hf, hrx, he]

section
variable {s : State} (hf : s.fsm ≠ .settled) (hrx : s.rx ≠ [])
include hf hrx

theorem poll_drains : poll s = drain s.held.length s := by
  cases h : s.fsm with
  | idle => simp [poll, pollAt, h, hrx, held_of_idle h]
  | accumulating => simp [poll, pollAt, h, hrx, held_of_accumulating h]
  | settled => exact absurd h hf

theorem poll_absorbs (hfit : s.held.length + s.rx.length < 257) : poll s = (.none, s.absorb hfit) :=
  (poll_drains hf hrx).trans (dif_pos hfit)

theorem poll_overflows (hover : 256 < s.held.length + s.rx.length) :
    poll s = (.overflow, { s with rx := [], len := 0, fsm := .idle }) :=
  (poll_drains hf hrx).trans (dif_neg (by omega))

end

/-! ## The service step (R117) -/

theorem service_none {s t : State} (h : poll s = (.none, t)) : service s = .next (report .noActivity t) := by
  simp only [service, h]

theorem service_overflow {s t : State} (h : poll s = (.overflow, t)) :
    service s = .next (report (.noReply .overflow) t) := by
  simp only [service, h]

/-- A cycle that ends leaves IDLE and no byte held (R79, R123). -/
theorem cycle_next_idle {s t : State} (h : cycle s = .next t) : t.fsm = .idle ∧ t.len.val = 0 := by
  obtain ⟨s1, _, h1⟩ := andThen_eq_next.mp h
  obtain rfl := Host.Outcome.next.inj h1
  exact ⟨rfl, rfl⟩

theorem step_absorbs {s : State} (hf : s.fsm ≠ .settled) (hrx : (takeInputs s).rx ≠ [])
    (hfit : (takeInputs s).held.length + (takeInputs s).rx.length < 257) :
    step s = .next (report .noActivity ((takeInputs s).absorb hfit)) :=
  service_none (poll_absorbs (by rwa [takeInputs_fsm]) hrx hfit)

/-! ## A frame in pieces (R75, R153) -/

/-- The assembler holds `bytes` as a candidate frame with no byte waiting, reported no activity, and has `polls` still
to come and `trace` sent. -/
def Assembling (bytes : List Byte) (polls : List PollInput) (trace : List TxEvent) (s : State) : Prop :=
  s.fsm = .accumulating ∧ s.frame = bytes ∧ s.rx = [] ∧ s.inputs = polls ∧ s.trace = trace ∧
    s.outcome = .noActivity

theorem step_assembles {s : State} {p : PollInput} {polls : List PollInput} (hf : s.fsm ≠ .settled) (hrx : s.rx = [])
    (hin : s.inputs = p :: polls) (hp : p.arrivals ≠ []) (hfit : (s.held ++ p.arrivals).length ≤ 256) :
    ∃ t, step s = .next t ∧ Assembling (s.held ++ p.arrivals) polls s.trace t := by
  have hu : (takeInputs s).rx = p.arrivals := by rw [takeInputs_cons hin]; simp [hrx]
  have hpolls : (takeInputs s).inputs = polls := by rw [takeInputs_cons hin]
  rw [List.length_append] at hfit
  refine ⟨_, step_absorbs hf (by rwa [hu]) (by rw [hu, held_takeInputs]; omega),
    rfl, ?_, rfl, hpolls, takeInputs_trace s, rfl⟩
  exact (frame_absorb _).trans (by rw [held_takeInputs, hu])

theorem run_assembles {p : PollInput} {polls : List PollInput} (ps : List PollInput) {s : State}
    (hf : s.fsm ≠ .settled) (hrx : s.rx = []) (hin : s.inputs = p :: (ps ++ polls))
    (hps : ∀ q ∈ p :: ps, q.arrivals ≠ [])
    (hfit : (s.held ++ ((p :: ps).map PollInput.arrivals).flatten).length ≤ 256) :
    ∃ t, Host.Core.run Sys2Proof.core (ps.length + 1) s = .next t ∧
      Assembling (s.held ++ ((p :: ps).map PollInput.arrivals).flatten) polls s.trace t := by
  obtain ⟨hp, hps⟩ := List.forall_mem_cons.mp hps
  rw [List.map_cons, List.flatten_cons, ← List.append_assoc] at hfit ⊢
  have hpiece : (s.held ++ p.arrivals).length ≤ 256 := (List.length_append ▸ Nat.le_add_right _ _).trans hfit
  obtain ⟨t, hstep, ht⟩ := step_assembles hf hrx hin hp hpiece
  rw [run_succ _ hstep]
  cases ps with
  | nil => exact ⟨t, rfl, by simpa using ht⟩
  | cons q ps =>
    obtain ⟨hacc, hframe, hrx', hin', htrace, _⟩ := ht
    rw [← hframe, ← held_of_accumulating hacc] at hfit ⊢
    rw [← htrace]
    exact run_assembles ps (by simp [hacc]) hrx' hin' hps hfit

/-! ## Time modulo `2^TW` (R80, R157) -/

theorem elapsedTW_mod {now tMark : Nat} (hle : tMark ≤ now) (hlt : now - tMark < 2 ^ 32) :
    elapsedTW (now % 2 ^ 32) (tMark % 2 ^ 32) = now - tMark := by
  unfold elapsedTW tw
  rw [BitVec.toNat_sub, BitVec.toNat_ofNat, BitVec.toNat_ofNat]
  omega

end Sys2Proof.Machine

namespace Sys2Proof.Proofs

open Machine

/-- Settles O27: the poll drains behind the bytes held, and what is stored there is read back behind them. -/
theorem arrivingBytesAreAppended : Obligations.ArrivingBytesAreAppended := by
  unfold Obligations.ArrivingBytesAreAppended
  intro s u held hf hrx hfit
  have hheld : u.held = held := held_takeInputs s
  rw [← hheld] at hfit ⊢
  exact ⟨_, step_absorbs hf hrx (Nat.lt_succ_of_le hfit), rfl, rfl, frame_absorb _, rfl, rfl, rfl, rfl, rfl,
    takeInputs_trace s, takeInputs_txEn s, takeInputs_cfg s, rfl⟩

/-- Settles O29: the first piece starts the frame or goes on with it, and each later piece is one more drain. -/
theorem piecesMakeOneFrame : Obligations.PiecesMakeOneFrame := by
  unfold Obligations.PiecesMakeOneFrame
  intro ps polls s held all hne hps hf hrx hin hfit
  cases ps with
  | nil => exact absurd rfl hne
  | cons p ps => exact run_assembles ps hf hrx hin hps hfit

/-- Settles O25: by the equation of each row. -/
theorem pollFollowsTransitionTable : Obligations.PollFollowsTransitionTable := by
  unfold Obligations.PollFollowsTransitionTable
  intro s k r
  have hempty : k = 0 → s.rx = [] := List.length_eq_zero_iff.mp
  have hnonempty : 1 ≤ k → s.rx ≠ [] := List.ne_nil_of_length_pos
  have hidle (hf : s.fsm = .idle) : s.held.length = 0 := by rw [held_of_idle hf]; rfl
  have hacc (hf : s.fsm = .accumulating) : s.held.length = s.len.val := by rw [held_of_accumulating hf, length_frame]
  refine ⟨fun hf hk => ?idleQuiet, fun hf hk hfit => ?idleFits, fun hf hover => ?idleOverflows,
    fun hf hk hfit => ?fits, fun hf hover hk => ?overflows, fun hf hk he => ?quiet, fun hf hk he => ?settles⟩
  case idleQuiet =>
    have hr : r = (.none, s) := poll_quiet (hempty hk) (.inl hf)
    exact hr ▸ ⟨rfl, hf⟩
  case idleFits =>
    have hlen : s.held.length + k = k := by rw [hidle hf, Nat.zero_add]
    have hr : r = _ := poll_absorbs (by simp [hf]) (hnonempty hk) (Nat.lt_succ_of_le (hlen.trans_le hfit))
    exact hr ▸ ⟨rfl, rfl, hlen⟩
  case idleOverflows =>
    have hr : r = _ := poll_overflows (by simp [hf]) (hnonempty (by omega)) (Nat.lt_add_left _ hover)
    exact hr ▸ ⟨rfl, rfl, rfl⟩
  case fits =>
    have hlen : s.held.length + k = s.len.val + k := by rw [hacc hf]
    have hr : r = _ := poll_absorbs (by simp [hf]) (hnonempty hk) (Nat.lt_succ_of_le (hlen.trans_le hfit))
    exact hr ▸ ⟨rfl, rfl, hlen⟩
  case overflows =>
    have hr : r = _ := poll_overflows (by simp [hf]) (hnonempty hk) (by rwa [hacc hf])
    exact hr ▸ ⟨rfl, rfl, rfl⟩
  case quiet =>
    have hr : r = (.none, s) := poll_quiet (hempty hk) (.inr ⟨hf, he⟩)
    exact hr ▸ ⟨rfl, hf⟩
  case settles =>
    have hr : r = settle s := poll_settles hf (hempty hk) he
    exact hr ▸ ⟨rfl, rfl, rfl, fun t ht => cycle_next_idle (service_settles hr ▸ ht)⟩

/-- Settles O26: the step is a quiet poll after the outside's moves. -/
theorem quietPollChangesNothing : Obligations.QuietPollChangesNothing := by
  unfold Obligations.QuietPollChangesNothing
  intro s hrx h
  exact service_none (poll_quiet hrx (by simpa using h))

/-- Settles O28: the drain behind the bytes held finds no room. -/
theorem overflowDiscardsEverything : Obligations.OverflowDiscardsEverything := by
  unfold Obligations.OverflowDiscardsEverything
  intro s u held hf hrx hover
  have hheld : u.held = held := held_takeInputs s
  rw [← hheld] at hover
  exact service_overflow (poll_overflows (by rwa [takeInputs_fsm]) hrx hover)

/-- Settles O48: subtraction of 32-bit words is subtraction modulo `2^32`. -/
theorem wrappedClockMeasuresElapsedTime : Obligations.WrappedClockMeasuresElapsedTime := by
  unfold Obligations.WrappedClockMeasuresElapsedTime
  exact fun _ _ => elapsedTW_mod

end Sys2Proof.Proofs
end

section
/-! SUPPORT. The family `42_parse_validate.md`: PARSE by position in the frame (R83 to R90), VALIDATE as one equation
per function byte (R91 to R97), the verdict of the nine checks (R99), and the bytes that no check examines (R98). -/

namespace Sys2Proof.Machine

/-! ## The bytes of a frame before its CRC, by position (R45, R54) -/

theorem take_eq_getD_cons_cons {f : List Byte} (h4 : 4 ≤ f.length) :
    f.take (f.length - 2) = f.getD 0 0#8 :: f.getD 1 0#8 :: (f.take (f.length - 2)).drop 2 := by
  match f, h4 with
  | _ :: _ :: _ :: _ :: _, _ => simp

theorem take_eq_twoFieldBody {f : List Byte} (h8 : 8 ≤ f.length) :
    f.take (f.length - 2) = twoFieldBody (f.getD 0 0#8) (f.getD 1 0#8) (be16 (f.getD 2 0#8) (f.getD 3 0#8))
      (be16 (f.getD 4 0#8) (f.getD 5 0#8)) ((f.take (f.length - 2)).drop 6) := by
  match f, h8 with
  | _ :: _ :: _ :: _ :: _ :: _ :: _ :: _ :: _, _ => simp [twoFieldBody]

theorem be16_eq_iff {h l : Byte} {v : Word} : be16 h l = v ↔ l = lo v ∧ h = hi v := by
  constructor
  · rintro rfl; simp
  · rintro ⟨rfl, rfl⟩; simp

theorem be16_eq_crc16_iff {f : List Byte} (h4 : 4 ≤ f.length) :
    be16 (f.getD (f.length - 1) 0#8) (f.getD (f.length - 2) 0#8) = crc16 (f.take (f.length - 2)) ↔
      crcCheck f = true := by
  rw [be16_eq_iff, crcCheck_iff (by omega)]

theorem supported_eq_false_iff {fn : Byte} :
    supported fn = false ↔ fn ≠ fnRead ∧ fn ≠ fnWrite1 ∧ fn ≠ fnWriteN := by
  rw [← Bool.not_eq_true, supported_iff, not_or, not_or]

/-! ## PARSE, one equation per step (R83) -/

theorem decodeRequest_short (slave : Byte) {f : List Byte} (h : f.length < 4) :
    decodeRequest slave f = .error .short := if_pos h

section
variable {slave : Byte} {f : List Byte} (h4 : 4 ≤ f.length)
include h4

theorem decodeRequest_crc (hcrc : crcCheck f = false) : decodeRequest slave f = .error .crc :=
  (if_neg (by omega)).trans (if_pos hcrc)

variable (hcrc : crcCheck f = true)
include hcrc

theorem decodeRequest_of_crcCheck : decodeRequest slave f = decodeRequestBody slave (f.take (f.length - 2)) :=
  (if_neg (by omega)).trans (if_neg (by simp [hcrc]))

theorem decodeRequest_foreign (hslave : f.getD 0 0#8 ≠ slave) : decodeRequest slave f = .error .foreign := by
  rw [decodeRequest_of_crcCheck h4 hcrc, take_eq_getD_cons_cons h4]
  exact if_pos hslave

variable (hslave : f.getD 0 0#8 = slave)
include hslave

theorem decodeRequest_illfn (hfn : supported (f.getD 1 0#8) = false) :
    decodeRequest slave f = .ok (.illfn slave (f.getD 1 0#8) ((f.take (f.length - 2)).drop 2)) := by
  rw [decodeRequest_of_crcCheck h4 hcrc, take_eq_getD_cons_cons h4, hslave]
  exact decodeRequestBody_illfn slave _ hfn

end

/-- A supported function needs the four bytes of its two fields (R88, R89). -/
theorem decodeRequestBody_short {slave fn : Byte} {payload : List Byte} (hfn : supported fn = true)
    (hlen : payload.length < 4) : decodeRequestBody slave (slave :: fn :: payload) = .error .short := by
  match payload, hlen with
  | [], _ => simp [decodeRequestBody, hfn]
  | [_], _ => simp [decodeRequestBody, hfn]
  | [_, _], _ => simp [decodeRequestBody, hfn]
  | [_, _, _], _ => simp [decodeRequestBody, hfn]

theorem decodeRequest_supported_short {slave : Byte} {f : List Byte} (h4 : 4 ≤ f.length) (hcrc : crcCheck f = true)
    (hslave : f.getD 0 0#8 = slave) (hfn : supported (f.getD 1 0#8) = true) (h8 : f.length < 8) :
    decodeRequest slave f = .error .short := by
  rw [decodeRequest_of_crcCheck h4 hcrc, take_eq_getD_cons_cons h4, hslave]
  exact decodeRequestBody_short hfn (by simp only [List.length_drop, List.length_take]; omega)

/-- From 8 bytes on, PARSE has only the function byte left to look at (R83). -/
theorem decodeRequest_fields {slave fn : Byte} {f : List Byte} (h8 : 8 ≤ f.length) (hcrc : crcCheck f = true)
    (hslave : f.getD 0 0#8 = slave) (hfn : f.getD 1 0#8 = fn) :
    decodeRequest slave f = decodeRequestBody slave (twoFieldBody slave fn (be16 (f.getD 2 0#8) (f.getD 3 0#8))
      (be16 (f.getD 4 0#8) (f.getD 5 0#8)) ((f.take (f.length - 2)).drop 6)) := by
  rw [decodeRequest_of_crcCheck (by omega) hcrc, ← hslave, ← hfn, ← take_eq_twoFieldBody h8]

/-- The length of the request term is that of its frame (`notes/assumptions/14.md`). -/
theorem requestLen_drop_take {f : List Byte} (h8 : 8 ≤ f.length) :
    requestLen ((f.take (f.length - 2)).drop 6) = f.length := by
  simp only [requestLen, List.length_drop, List.length_take]; omega

/-! ## VALIDATE, one equation per function byte (R91 to R97) -/

theorem validate_unsupported {fn : Byte} (start p45 : Word) (n len : Nat) (h : supported fn = false) :
    validate fn start p45 n len = some .illegalFunction := by
  simp [validate, h]

theorem validate_write1 (addr value : Word) (n len : Nat) :
    validate fnWrite1 addr value n len = if addr.toNat < n then none else some .illegalDataAddress := rfl

theorem validate_read (start count : Word) (n len : Nat) :
    validate fnRead start count n len =
      if ¬ (1 ≤ count.toNat ∧ count.toNat ≤ 125) then some .illegalDataValue
      else if ¬ (start.toNat + count.toNat ≤ n) then some .illegalDataAddress
      else none := by
  simp [validate, supported, fnRead, fnWrite1, fnWriteN]

theorem validate_writeN (start count : Word) (n len : Nat) :
    validate fnWriteN start count n len =
      if ¬ (1 ≤ count.toNat ∧ count.toNat ≤ 123) then some .illegalDataValue
      else if ¬ (start.toNat + count.toNat ≤ n) then some .illegalDataAddress
      else if len < 9 + 2 * count.toNat then some .illegalDataValue
      else none := by
  simp [validate, supported, fnRead, fnWrite1, fnWriteN]

/-- A write-multiple whose frame holds its data words passes VALIDATE's look at the length (R97). -/
theorem validate_writeN_length {start count : Word} {n len len' : Nat} (h : 9 + 2 * count.toNat ≤ len)
    (h' : 9 + 2 * count.toNat ≤ len') :
    validate fnWriteN start count n len = validate fnWriteN start count n len' := by
  rw [validate_writeN, validate_writeN, if_neg h.not_gt, if_neg h'.not_gt]

/-! ## What a request does with VALIDATE's answer (R100, R118) -/

/-- The exception, or the response `body` of a frame of `len` bytes, sent in the state `s'` that the register accesses
leave. -/
def afterValidate (fn : Byte) (v : Option ExcCode) (body : List Byte) (len : Nat) (s s' : State) :
    Host.Outcome State Fault Refusal :=
  match v with
  | some code => raiseException fn code s
  | none => respond body (.frameProcessed len) s'

/-- The Outcome that VALIDATE's answer leads to, for a frame of `len` bytes. -/
def validateVerdict (len : Nat) : Option ExcCode → ServiceOutcome
  | some code => .exception code
  | none => .frameProcessed len

@[simp] theorem validateVerdict_some (len : Nat) (code : ExcCode) :
    validateVerdict len (some code) = .exception code := rfl

@[simp] theorem validateVerdict_none (len : Nat) : validateVerdict len none = .frameProcessed len := rfl

theorem exec_rhr_eq (slave : Byte) (start count : Word) (surplus : List Byte) (s : State) :
    exec (.rhr slave start count surplus) s = addressed slave s
      (afterValidate fnRead (validate fnRead start count s.cfg.n (requestLen surplus))
        (rhrRspBody s.cfg.slave (s.readRegs start.toNat count.toNat)) (requestLen surplus) s s) := rfl

theorem exec_wsr_eq (slave : Byte) (addr value : Word) (surplus : List Byte) (s : State) :
    exec (.wsr slave addr value surplus) s = addressed slave s
      (afterValidate fnWrite1 (validate fnWrite1 addr value s.cfg.n (requestLen surplus))
        (wsrRspBody s.cfg.slave addr value) (requestLen surplus) s (s.writeRegs addr.toNat [value])) := rfl

theorem exec_wmr_eq (slave : Byte) (start count : Word) (rest : List Byte) (s : State) :
    exec (.wmr slave start count rest) s = addressed slave s
      (afterValidate fnWriteN (validate fnWriteN start count s.cfg.n (requestLen rest))
        (wmrRspBody s.cfg.slave start count) (requestLen rest) s
        (s.writeRegs start.toNat (dataWords count.toNat rest))) := rfl

/-! ## The length reported (R98) -/

theorem afterValidate_relength (len len' : Nat) (fn : Byte) (v : Option ExcCode) (body : List Byte) (s s' : State) :
    afterValidate fn v body len' s s' = relength len' (afterValidate fn v body len s s') := by
  cases v with
  | some code => exact respond_relength len' (excRspBody s.cfg.slave fn code) (.exception code) s
  | none => exact respond_relength len' body (.frameProcessed len) s'

/-- A foreign frame is dropped whatever its length. -/
theorem addressed_relength {slave : Byte} {s : State} {k k' : Host.Outcome State Fault Refusal} {n : Nat}
    (h : k' = relength n k) : addressed slave s k' = relength n (addressed slave s k) := by
  by_cases hslave : slave = s.cfg.slave
  · simpa only [addressed, if_pos hslave] using h
  · rw [addressed_foreign hslave, addressed_foreign hslave]; rfl

theorem dataWords_append {count : Nat} {rest : List Byte} (x : List Byte) (h : 1 + 2 * count ≤ rest.length) :
    dataWords count (rest ++ x) = dataWords count rest := by
  rw [dataWords, List.drop_append_of_le_length (by omega),
    List.take_append_of_le_length (by rw [List.length_drop]; omega), ← dataWords]

theorem exec_rhr_surplus (slave : Byte) (start count : Word) (x y : List Byte) (s : State) :
    exec (.rhr slave start count y) s = relength (8 + y.length) (exec (.rhr slave start count x) s) := by
  rw [exec_rhr_eq, exec_rhr_eq, validate_length start count _ (requestLen y) (requestLen x) (by decide)]
  exact addressed_relength (afterValidate_relength ..)

theorem exec_wsr_surplus (slave : Byte) (addr value : Word) (x y : List Byte) (s : State) :
    exec (.wsr slave addr value y) s = relength (8 + y.length) (exec (.wsr slave addr value x) s) := by
  rw [exec_wsr_eq, exec_wsr_eq, validate_length addr value _ (requestLen y) (requestLen x) (by decide)]
  exact addressed_relength (afterValidate_relength ..)

theorem exec_wmr_surplus (slave : Byte) (start : Word) {count : Word} {rest : List Byte} (x : List Byte) (s : State)
    (h : 1 + 2 * count.toNat ≤ rest.length) : exec (.wmr slave start count (rest ++ x)) s =
      relength (8 + rest.length + x.length) (exec (.wmr slave start count rest) s) := by
  have hlen : requestLen (rest ++ x) = 8 + rest.length + x.length := by
    rw [requestLen, List.length_append, Nat.add_assoc]
  have hv : validate fnWriteN start count s.cfg.n (8 + rest.length + x.length) =
      validate fnWriteN start count s.cfg.n (requestLen rest) :=
    validate_writeN_length (by omega) (by rw [requestLen]; omega)
  rw [exec_wmr_eq, exec_wmr_eq, dataWords_append x h, hlen, hv]
  exact addressed_relength (afterValidate_relength ..)

theorem exec_wmr_byteCount (slave : Byte) (start count : Word) (bc bc' : Byte) (data : List Byte) (s : State) :
    exec (.wmr slave start count (bc :: data)) s = exec (.wmr slave start count (bc' :: data)) s := rfl

theorem exec_illfn_payload (slave fn : Byte) (x y : List Byte) (s : State) :
    exec (.illfn slave fn x) s = exec (.illfn slave fn y) s := rfl

/-! ## The Outcome of a request (R118) -/

theorem respond_outcome {body : List Byte} (o : ServiceOutcome) {s : State} (hbody : body.length + 2 < 257)
    (hs : CanSend s) : ∃ t, respond body o s = .next t ∧ t.outcome = o := by
  obtain ⟨t, ht, ⟨ho, _⟩, _⟩ := respond_answers o s hbody hs
  exact ⟨t, ht, ho⟩

theorem raiseException_outcome (fn : Byte) (code : ExcCode) {s : State} (hs : CanSend s) :
    ∃ t, raiseException fn code s = .next t ∧ t.outcome = .exception code := respond_outcome _ (by simp) hs

theorem afterValidate_outcome {fn : Byte} {v : Option ExcCode} {body : List Byte} {s s' : State} (len : Nat)
    (hbody : v = none → body.length + 2 < 257) (hs : CanSend s) (hs' : CanSend s') :
    ∃ t, afterValidate fn v body len s s' = .next t ∧ t.outcome = validateVerdict len v := by
  cases v with
  | some code => exact raiseException_outcome fn code hs
  | none => exact respond_outcome (.frameProcessed len) (hbody rfl) hs'

section
variable {s : State} (hs : CanSend s)
include hs

theorem exec_rhr_outcome (start count : Word) (surplus : List Byte) :
    ∃ t, exec (.rhr s.cfg.slave start count surplus) s = .next t ∧ t.outcome =
      validateVerdict (requestLen surplus) (validate fnRead start count s.cfg.n (requestLen surplus)) := by
  rw [exec_rhr_eq, addressed_self]
  refine afterValidate_outcome _ (fun hv => ?_) hs hs
  obtain ⟨_, hmax, _⟩ := validate_read_none.mp hv
  rw [length_rhrRspBody, length_readRegs]; omega

theorem exec_wsr_outcome (addr value : Word) (surplus : List Byte) :
    ∃ t, exec (.wsr s.cfg.slave addr value surplus) s = .next t ∧ t.outcome =
      validateVerdict (requestLen surplus) (validate fnWrite1 addr value s.cfg.n (requestLen surplus)) := by
  rw [exec_wsr_eq, addressed_self]
  exact afterValidate_outcome _ (fun _ => by simp) hs hs

theorem exec_wmr_outcome (start count : Word) (rest : List Byte) :
    ∃ t, exec (.wmr s.cfg.slave start count rest) s = .next t ∧ t.outcome =
      validateVerdict (requestLen rest) (validate fnWriteN start count s.cfg.n (requestLen rest)) := by
  rw [exec_wmr_eq, addressed_self]
  exact afterValidate_outcome _ (fun _ => by simp) hs hs

theorem exec_illfn_outcome (fn : Byte) (payload : List Byte) :
    ∃ t, exec (.illfn s.cfg.slave fn payload) s = .next t ∧ t.outcome = .exception .illegalFunction := by
  rw [exec, execIllfn, addressed_self]
  exact raiseException_outcome fn .illegalFunction hs

end

/-! ## The nine checks of a candidate frame (R99) -/

theorem process_error {s : State} {r : DropReason} (h : decodeRequest s.cfg.slave s.frame = .error r) :
    process s = .next (dropFrame r s) := by
  unfold process; rw [h]

theorem process_ok {s : State} {i : Instr} (h : decodeRequest s.cfg.slave s.frame = .ok i) : process s = exec i s := by
  unfold process; rw [h]

theorem frameVerdict_short (slave : Byte) (n : Nat) {f : List Byte} (h : f.length < 4) :
    frameVerdict slave n f = .noReply .short := if_pos h

section
variable {slave : Byte} {n : Nat} {f : List Byte} (h4 : 4 ≤ f.length)
include h4

theorem frameVerdict_crc (hcrc : crcCheck f = false) : frameVerdict slave n f = .noReply .crc := by
  have hbad := (be16_eq_crc16_iff h4).not.mpr (by simp [hcrc])
  exact (if_neg h4.not_gt).trans (if_pos hbad)

variable (hcrc : crcCheck f = true)
include hcrc

theorem frameVerdict_foreign (hslave : f.getD 0 0#8 ≠ slave) : frameVerdict slave n f = .noReply .foreign := by
  have hgood := (be16_eq_crc16_iff h4).mpr hcrc
  exact (if_neg h4.not_gt).trans ((if_neg (not_not.mpr hgood)).trans (if_pos hslave))

/-- The header checked, six checks are left: the function byte, the length, and those of VALIDATE. -/
theorem frameVerdict_addressed (hslave : f.getD 0 0#8 = slave) : frameVerdict slave n f =
    if supported (f.getD 1 0#8) = false then .exception .illegalFunction
    else if f.length < 8 then .noReply .short
    else validateVerdict f.length (validate (f.getD 1 0#8) (be16 (f.getD 2 0#8) (f.getD 3 0#8))
      (be16 (f.getD 4 0#8) (f.getD 5 0#8)) n f.length) := by
  have hgood := (be16_eq_crc16_iff h4).mpr hcrc
  refine (if_neg h4.not_gt).trans ((if_neg (not_not.mpr hgood)).trans ((if_neg (not_not.mpr hslave)).trans ?_))
  refine ite_congr (propext supported_eq_false_iff.symm) (fun _ => rfl) fun hfn => ?_
  refine ite_congr rfl (fun _ => rfl) fun _ => ?_
  simp only [validate, hfn, apply_ite (validateVerdict f.length), validateVerdict_some, validateVerdict_none,
    Nat.not_le, Bool.not_true, Bool.false_eq_true, if_false]

end

/-- A request of a supported function, complete and addressed to this slave, ends as VALIDATE's answer says. -/
theorem process_supported {s : State} (hs : CanSend s) (h8 : 8 ≤ s.frame.length) (hcrc : crcCheck s.frame = true)
    (hslave : s.frame.getD 0 0#8 = s.cfg.slave) (hfn : supported (s.frame.getD 1 0#8) = true) :
    ∃ t, process s = .next t ∧ t.outcome = validateVerdict s.frame.length (validate (s.frame.getD 1 0#8)
      (be16 (s.frame.getD 2 0#8) (s.frame.getD 3 0#8)) (be16 (s.frame.getD 4 0#8) (s.frame.getD 5 0#8)) s.cfg.n
      s.frame.length) := by
  rw [← requestLen_drop_take h8]
  obtain hfn | hfn | hfn := supported_iff.mp hfn <;> rw [hfn]
  · rw [process_ok ((decodeRequest_fields h8 hcrc hslave hfn).trans (decodeRequestBody_rhr ..))]
    exact exec_rhr_outcome hs _ _ _
  · rw [process_ok ((decodeRequest_fields h8 hcrc hslave hfn).trans (decodeRequestBody_wsr ..))]
    exact exec_wsr_outcome hs _ _ _
  · rw [process_ok ((decodeRequest_fields h8 hcrc hslave hfn).trans (decodeRequestBody_wmr ..))]
    exact exec_wmr_outcome hs _ _ _

/-- The nine checks in their order: three of the header, then those of `frameVerdict_addressed`. -/
theorem process_outcome {s : State} (hs : CanSend s) :
    ∃ t, process s = .next t ∧ t.outcome = frameVerdict s.cfg.slave s.cfg.n s.frame := by
  obtain h4 | h4 := Nat.lt_or_ge s.frame.length 4
  · exact ⟨_, process_error (decodeRequest_short _ h4), (frameVerdict_short _ _ h4).symm⟩
  cases hcrc : crcCheck s.frame with
  | false => exact ⟨_, process_error (decodeRequest_crc h4 hcrc), (frameVerdict_crc h4 hcrc).symm⟩
  | true =>
    by_cases hslave : s.frame.getD 0 0#8 = s.cfg.slave
    case neg =>
      exact ⟨_, process_error (decodeRequest_foreign h4 hcrc hslave), (frameVerdict_foreign h4 hcrc hslave).symm⟩
    rw [frameVerdict_addressed h4 hcrc hslave]
    cases hfn : supported (s.frame.getD 1 0#8) with
    | false =>
      rw [process_ok (decodeRequest_illfn h4 hcrc hslave hfn)]
      exact exec_illfn_outcome hs _ _
    | true =>
      rw [if_neg (by simp)]
      split
      · next h8 => exact ⟨_, process_error (decodeRequest_supported_short h4 hcrc hslave hfn h8), rfl⟩
      · next h8 => exact process_supported hs (not_lt.mp h8) hcrc hslave hfn

end Sys2Proof.Machine

namespace Sys2Proof.Proofs

open Machine

/-- Settles O5: by the equation of each step, with the CRC test as CRC.CHECK makes it. -/
theorem parseFollowsItsSteps : Obligations.ParseFollowsItsSteps := by
  unfold Obligations.ParseFollowsItsSteps
  intro slave f body crcOk fn start p45
  have hcrcOk (h4 : 4 ≤ f.length) : crcOk ↔ crcCheck f = true := be16_eq_crc16_iff h4
  refine ⟨decodeRequest_short slave, fun h4 hbad => decodeRequest_crc h4 ?_,
    fun h4 hok => decodeRequest_foreign h4 ((hcrcOk h4).mp hok), fun h4 hok hslave => ?_⟩
  · rwa [hcrcOk h4, Bool.not_eq_true] at hbad
  have hcrc := (hcrcOk h4).mp hok
  refine ⟨fun hfn => decodeRequest_illfn h4 hcrc hslave (supported_eq_false_iff.mpr hfn),
    fun hfn => decodeRequest_supported_short h4 hcrc hslave (supported_iff.mpr hfn),
    fun hfn h8 => ?read, fun hfn h8 => ?write1, fun hfn h8 => ?writeN⟩
  case read => exact (decodeRequest_fields h8 hcrc hslave hfn).trans (decodeRequestBody_rhr ..)
  case write1 => exact (decodeRequest_fields h8 hcrc hslave hfn).trans (decodeRequestBody_wsr ..)
  case writeN => exact (decodeRequest_fields h8 hcrc hslave hfn).trans (decodeRequestBody_wmr ..)

/-- Settles O12: one function byte at a time, each clause is the condition of a branch. -/
theorem validateDecidesTheCode : Obligations.ValidateDecidesTheCode := by
  unfold Obligations.ValidateDecidesTheCode
  intro fn start p45 n len
  dsimp only
  cases hfn : supported fn with
  | false =>
    have hne := supported_eq_false_iff.mp hfn
    simp [validate_unsupported start p45 n len hfn, hne]
  | true =>
    obtain rfl | rfl | rfl := supported_iff.mp hfn
    · rw [validate_read]; split_ifs <;> simp [fnRead] <;> omega
    · rw [validate_write1]; split_ifs <;> simp [fnWrite1] <;> omega
    · rw [validate_writeN]; split_ifs <;> simp [fnWriteN] <;> omega

/-- Settles O32: the checks of PARSE and of VALIDATE are those of the verdict, in its order. -/
theorem cycleReportsTheFirstFailure : Obligations.CycleReportsTheFirstFailure := by
  unfold Obligations.CycleReportsTheFirstFailure
  intro s hs
  obtain ⟨t, ht, ho⟩ := process_outcome hs
  exact ⟨endCycle t, by rw [cycle, ht, andThen_next], ho, rfl, rfl, rfl⟩

/-- Settles O44: VALIDATE reads the length of a write-multiple only, and there only whether the data words fit; the
`byte_count` byte and ILLFN's payload stand in no meaning at all. -/
theorem unexaminedBytesHaveNoEffect : Obligations.UnexaminedBytesHaveNoEffect := by
  unfold Obligations.UnexaminedBytesHaveNoEffect
  exact fun s sl a b => ⟨fun bc bc' data => exec_wmr_byteCount sl a b bc bc' data s,
    fun x y => exec_rhr_surplus sl a b x y s, fun x y => exec_wsr_surplus sl a b x y s,
    fun _ x h => exec_wmr_surplus sl a x s h, fun fn x y => exec_illfn_payload sl fn x y s⟩

end Sys2Proof.Proofs
end

section
/-! SUPPORT. The family `43_register_ops.md`: what each accepted request answers and leaves in the bank (R101 to R104),
and that nothing else writes a register (R105). -/

namespace Sys2Proof.Machine

/-! ## The read response by position in its frame (R50, R101) -/

theorem be16_getD_bytesOf {values : List Word} {i : Nat} (h : i < values.length) :
    be16 ((bytesOf values).getD (2 * i) 0#8) ((bytesOf values).getD (2 * i + 1) 0#8) = values.getD i 0#16 := by
  rw [← getD_wordsOf _ _ (by rw [length_bytesOf]; omega), wordsOf_bytesOf]

theorem getD_stamp_rhrRspBody (slave : Byte) {values : List Word} {k : Nat} (h : k < 2 * values.length) :
    (stamp (rhrRspBody slave values)).getD (3 + k) 0#8 = (bytesOf values).getD k 0#8 := by
  simp [stamp, rhrRspBody, h, Nat.add_comm 3 k, List.getElem?_append_left]

theorem be16_getD_stamp_rhrRspBody (slave : Byte) {values : List Word} {i : Nat} (h : i < values.length) :
    be16 ((stamp (rhrRspBody slave values)).getD (3 + 2 * i) 0#8)
      ((stamp (rhrRspBody slave values)).getD (4 + 2 * i) 0#8) = values.getD i 0#16 := by
  rw [show 4 + 2 * i = 3 + (2 * i + 1) by omega, getD_stamp_rhrRspBody slave (by omega),
    getD_stamp_rhrRspBody slave (by omega), be16_getD_bytesOf h]

theorem toNat_byteCount_rhrRspBody (slave : Byte) {values : List Word} (h : values.length ≤ 125) :
    ((stamp (rhrRspBody slave values)).getD 2 0#8).toNat = 2 * values.length :=
  Nat.mod_eq_of_lt (show 2 * values.length < 256 by omega)

theorem getD_readRegs (s : State) (start : Nat) {count i : Nat} (h : i < count) :
    (s.readRegs start count).getD i 0#16 = Cells.read s.regs (start + i) := by
  rw [List.getD_eq_getElem _ _ (by rwa [length_readRegs])]
  exact Cells.getElem_readList ..

/-! ## A write-single to an address inside the bank (R102) -/

/-- Everything an executed write-single inside the bank does. -/
theorem exec_wsr_next {s t : State} {addr value : Word} {surplus : List Byte} (hn : addr.toNat < s.cfg.n)
    (h : exec (.wsr s.cfg.slave addr value surplus) s = .next t) :
    Answered s t (stamp (wsrRspBody s.cfg.slave addr value)) (.frameProcessed (8 + surplus.length)) ∧
      t.regs = Cells.write s.regs addr.toNat value := by
  rw [exec_wsr_accepted value surplus hn] at h
  obtain ⟨_, _, hans, hregs, _⟩ := respond_next h
  exact ⟨hans, hregs⟩

/-! ## Who writes a register (R105) -/

theorem addressed_next {slave : Byte} {s t : State} {k : Host.Outcome State Fault Refusal}
    (h : addressed slave s k = .next t) : t = dropFrame .foreign s ∨ k = .next t := by
  by_cases hslave : slave = s.cfg.slave
  · exact .inr ((if_pos hslave).symm.trans h)
  · rw [addressed_foreign hslave] at h; exact .inl (Host.Outcome.next.inj h).symm

theorem afterValidate_regs {fn : Byte} {v : Option ExcCode} {body : List Byte} {len : Nat} {s t : State}
    (h : afterValidate fn v body len s s = .next t) : t.regs = s.regs := by
  cases v with
  | some code => exact respond_regs (show raiseException fn code s = .next t from h)
  | none => exact respond_regs h

theorem exec_rhr_regs {slave : Byte} {start count : Word} {surplus : List Byte} {s t : State}
    (h : exec (.rhr slave start count surplus) s = .next t) : t.regs = s.regs := by
  rw [exec_rhr_eq] at h
  obtain rfl | h := addressed_next h
  · rfl
  · exact afterValidate_regs h

theorem exec_illfn_regs {slave fn : Byte} {payload : List Byte} {s t : State}
    (h : exec (.illfn slave fn payload) s = .next t) : t.regs = s.regs := by
  obtain rfl | h := addressed_next h
  · rfl
  · exact respond_regs h

/-- A register changes only where a processed frame wrote, which is inside the bank (R105, R134). -/
theorem RequestResult.processed_of_read_regs_ne {s t : State} {a : Nat} (h : RequestResult s t)
    (hne : Cells.read t.regs a ≠ Cells.read s.regs a) :
    (∃ n, t.outcome = .frameProcessed n) ∧ a < s.cfg.n := by
  cases h with
  | dropped h => subst h; exact absurd rfl hne
  | refused fn code _ _ hr => rw [hr] at hne; exact absurd rfl hne
  | read values n _ _ _ hr => rw [hr] at hne; exact absurd rfl hne
  | wrote fn start count n ws hw h hr =>
    obtain ⟨_, ⟨hout, _⟩, _⟩ := h
    refine ⟨⟨n, hout⟩, not_le.mp fun ha => hne ?_⟩
    rw [hr, Cells.read_writeList_outside _ _ _ (.inr (by omega))]

/-- The function byte of a parsed request that changes a register is a write's (R55, R105). -/
theorem fn_of_read_regs_ne {s t : State} {i : Instr} {a : Nat} (hdec : decodeRequest s.cfg.slave s.frame = .ok i)
    (hexec : exec i s = .next t) (hne : Cells.read t.regs a ≠ Cells.read s.regs a) :
    s.frame.getD 1 0#8 = 0x06#8 ∨ s.frame.getD 1 0#8 = 0x10#8 := by
  obtain ⟨hreq, _⟩ := decodeRequest_isRequest hdec
  rw [← encode_of_decodeRequest hdec]
  cases i with
  | rhr => rw [exec_rhr_regs hexec] at hne; exact absurd rfl hne
  | wsr => exact .inl rfl
  | wmr => exact .inr rfl
  | illfn => rw [exec_illfn_regs hexec] at hne; exact absurd rfl hne
  | rhrRsp => simp [Instr.isRequest] at hreq
  | wsrRsp => simp [Instr.isRequest] at hreq
  | wmrRsp => simp [Instr.isRequest] at hreq
  | excRsp => simp [Instr.isRequest] at hreq

/-- A frame that changes a register is a processed write, and the register lies inside the bank (R105). -/
theorem processedWrite_of_read_regs_ne {s t : State} {a : Nat} (h : process s = .next t)
    (hne : Cells.read t.regs a ≠ Cells.read s.regs a) :
    (∃ n, t.outcome = .frameProcessed n) ∧ a < s.cfg.n ∧
      (s.frame.getD 1 0#8 = 0x06#8 ∨ s.frame.getD 1 0#8 = 0x10#8) := by
  obtain ⟨r, _, rfl⟩ | ⟨i, hdec, hexec, hresult⟩ := process_next h
  · exact absurd rfl hne
  · obtain ⟨hout, ha⟩ := hresult.processed_of_read_regs_ne hne
    exact ⟨hout, ha, fn_of_read_regs_ne hdec hexec hne⟩

@[simp] theorem takeInputs_frame (s : State) : (takeInputs s).frame = s.frame := frame_congr (by simp) (by simp)

end Sys2Proof.Machine

namespace Sys2Proof.Proofs

open Machine

/-- Settles O36: a poll without a frame leaves the bank alone, and of the requests only the two writes change it. -/
theorem onlyProcessedWritesChangeTheBank : Obligations.OnlyProcessedWritesChangeTheBank := by
  unfold Obligations.OnlyProcessedWritesChangeTheBank
  intro s t a hstep hne
  have quiet {s1 : State} {r : PollResult} (hr : r ≠ .frame) (hp : poll (takeInputs s) = (r, s1)) :
      s1.regs = (takeInputs s).regs := by
    obtain ⟨_, _, _, _, hregs, _⟩ := poll_no_frame hr hp
    exact hregs
  obtain ⟨s1, hp, rfl⟩ | ⟨s1, hp, rfl⟩ | ⟨s1, s2, hp, hproc, rfl⟩ := step_cases hstep
  · rw [report_regs, quiet (by simp) hp] at hne; exact absurd rfl hne
  · rw [report_regs, quiet (by simp) hp] at hne; exact absurd rfl hne
  · obtain rfl := poll_frame hp
    rw [← takeInputs_frame s, ← takeInputs_cfg s]
    exact (processedWrite_of_read_regs_ne hproc hne :)

/-- Settles O13: the registers read stand behind the byte count, and no later stage touches the bank. -/
theorem readAnswersBankContents : Obligations.ReadAnswersBankContents := by
  unfold Obligations.ReadAnswersBankContents
  intro s start count surplus hs h1 h2 hn
  have hlen : (s.readRegs start.toNat count.toNat).length = count.toNat := length_readRegs ..
  obtain ⟨t, ht, hans, hregs, _⟩ := respond_answers
    (body := rhrRspBody s.cfg.slave (s.readRegs start.toNat count.toNat)) (.frameProcessed (requestLen surplus)) s
    (by rw [length_rhrRspBody]; omega) hs
  refine ⟨t, _, (exec_rhr_accepted surplus h1 h2 hn).trans ht, hans, fun a => by rw [hregs], ?_, ⟨_, rfl⟩, rfl, rfl,
    ?_, fun i hi => ?_⟩
  · rw [length_stamp, length_rhrRspBody]; omega
  · rw [toNat_byteCount_rhrRspBody _ (by omega), hlen]
  · rw [be16_getD_stamp_rhrRspBody _ (by omega), getD_readRegs s _ hi]

/-- Settles O14: the write is one cell of the bank, and the response that follows it leaves the bank alone. -/
theorem writeSingleStoresAndEchoes : Obligations.WriteSingleStoresAndEchoes := by
  unfold Obligations.WriteSingleStoresAndEchoes
  intro s addr value surplus hs hn
  obtain ⟨t, ht, _⟩ := exec_wsr_outcome hs addr value surplus
  obtain ⟨hans, hregs⟩ := exec_wsr_next hn ht
  exact ⟨t, ht, hans, read_regs_of_exec_wsr hn ht, fun a ha => by rw [hregs, Cells.read_write_other _ _ ha]⟩

/-- Settles O15: the data words are the cells written, `count` of them, and the response leaves the bank alone. -/
theorem writeMultipleStoresItsWords : Obligations.WriteMultipleStoresItsWords := by
  unfold Obligations.WriteMultipleStoresItsWords
  intro s start count rest hs h1 h2 hn hrest
  have hlen : 9 + 2 * count.toNat ≤ requestLen rest := hrest
  obtain ⟨t, ht, hans, hregs, _⟩ := respond_answers (body := wmrRspBody s.cfg.slave start count)
    (.frameProcessed (requestLen rest)) (s.writeRegs start.toNat (dataWords count.toNat rest)) (by simp) hs
  have hexec := (exec_wmr_accepted h1 h2 hn hlen).trans ht
  refine ⟨t, hexec, hans, fun i hi => read_regs_of_exec_wmr h1 h2 hn (by omega) hexec hi, fun a ha => ?_⟩
  rw [hregs, writeRegs_regs, Cells.read_writeList_outside _ _ _ (by rwa [length_dataWords hlen])]

/-- Settles O42: the first execution leaves the configuration alone and the register at the value, so the second is the
same write, of what the register holds already. -/
theorem writeSingleIsIdempotent : Obligations.WriteSingleIsIdempotent := by
  unfold Obligations.WriteSingleIsIdempotent
  intro s t u addr value surplus hn hfirst hsecond
  have hread := read_regs_of_exec_wsr hn hfirst
  obtain ⟨⟨_, htrace, _, htx, _, _, hcfg, _⟩, _⟩ := exec_wsr_next hn hfirst
  rw [← hcfg] at hn hsecond htrace htx
  obtain ⟨⟨_, htrace', _, htx', _⟩, hregs'⟩ := exec_wsr_next hn hsecond
  refine ⟨fun a => ?_, htx'.trans htx.symm, _, htrace, htrace'⟩
  by_cases ha : a = addr.toNat
  · rw [ha, hregs', Cells.read_write_same, hread]
  · rw [hregs', Cells.read_write_other _ _ ha]

/-- Settles O16: the meaning is the exception illegal-function, whose answer touches no register. -/
theorem unsupportedFunctionIsAnswered : Obligations.UnsupportedFunctionIsAnswered := by
  unfold Obligations.UnsupportedFunctionIsAnswered
  intro s fn payload hs _ _ _
  obtain ⟨t, ht, hans, hregs, _⟩ := respond_answers (body := excRspBody s.cfg.slave fn .illegalFunction)
    (.exception .illegalFunction) s (by simp) hs
  exact ⟨t, (addressed_self s _).trans ht, hans, fun a => by rw [hregs]⟩

end Sys2Proof.Proofs
end

section
/-! SUPPORT. The family `44_frame_build_send.md`: BUILD of the four responses (R107 to R112), SEND (R113), the request
that is stuck in its send, and that every step is silent or sends one stamped frame (R114 to R116). -/

namespace Sys2Proof.Machine

/-! ## BUILD (R107, R112) -/

/-- BUILD of a body that fits completes, and all it has done is to build the stamped frame. -/
theorem build_built {body : List Byte} (s : State) (hfit : body.length + 2 < 257) :
    ∃ t, build body s = .next t ∧ Built s t (stamp body) :=
  ⟨_, build_fits s hfit, rfl, Cells.readList_writeList _ _ _,
    fun _ ha => Cells.read_writeList_outside _ _ _ (.inr (by rwa [Nat.zero_add])),
    rfl, rfl, rfl, rfl, rfl, rfl, rfl, rfl, rfl, rfl, rfl, rfl, rfl, rfl⟩

/-- The stamp stands behind the body and moves none of its bytes. -/
theorem getD_stamp {body : List Byte} {k : Nat} (hk : k < body.length) :
    (stamp body).getD k 0#8 = body.getD k 0#8 := List.getD_append _ _ _ _ hk

/-! ## A send whose completion is never reported (R113, R124) -/

section
variable {s : State} (hrs : s.cfg.rs485 = true) (hrep : s.txReports = false)
include hrs hrep

theorem raiseException_stuck (fn : Byte) (code : ExcCode) :
    raiseException fn code s = .fault .transmitNeverCompletes := respond_stuck _ s (by simp) hrs hrep

/-- Whatever VALIDATE answers, a frame is sent. -/
theorem afterValidate_stuck {s' : State} {fn : Byte} {v : Option ExcCode} {body : List Byte} (len : Nat)
    (hbody : v = none → body.length + 2 < 257) (hrs' : s'.cfg.rs485 = true) (hrep' : s'.txReports = false) :
    afterValidate fn v body len s s' = .fault .transmitNeverCompletes := by
  cases v with
  | some code => exact raiseException_stuck hrs hrep fn code
  | none => exact respond_stuck _ s' (hbody rfl) hrs' hrep'

theorem exec_stuck {i : Instr} (hreq : i.isRequest = true) (hslave : i.slave = s.cfg.slave) :
    exec i s = .fault .transmitNeverCompletes := by
  cases i with
  | rhr sl start count surplus =>
    obtain rfl : sl = s.cfg.slave := hslave
    rw [exec_rhr_eq, addressed_self]
    refine afterValidate_stuck hrs hrep _ (fun hv => ?_) hrs hrep
    obtain ⟨_, hmax, _⟩ := validate_read_none.mp hv
    rw [length_rhrRspBody, length_readRegs]; omega
  | wsr sl addr value surplus =>
    obtain rfl : sl = s.cfg.slave := hslave
    rw [exec_wsr_eq, addressed_self]
    exact afterValidate_stuck hrs hrep _ (fun _ => by simp) hrs hrep
  | wmr sl start count rest =>
    obtain rfl : sl = s.cfg.slave := hslave
    rw [exec_wmr_eq, addressed_self]
    exact afterValidate_stuck hrs hrep _ (fun _ => by simp) hrs hrep
  | illfn sl fn payload =>
    obtain rfl : sl = s.cfg.slave := hslave
    exact (addressed_self s _).trans (raiseException_stuck hrs hrep fn .illegalFunction)
  | rhrRsp => simp [Instr.isRequest] at hreq
  | wsrRsp => simp [Instr.isRequest] at hreq
  | wmrRsp => simp [Instr.isRequest] at hreq
  | excRsp => simp [Instr.isRequest] at hreq

end

/-! ## What a step adds to the transmit side (R114, R115, R116) -/

/-- Nothing was sent or built, and no register written. -/
def Silent (s t : State) : Prop :=
  t.trace = s.trace ∧ t.txEn = s.txEn ∧ t.txf = s.txf ∧ t.txLen = s.txLen ∧ t.regs = s.regs

/-- One stamped frame was sent, whose body has 3 to 253 bytes and begins with `SLAVE`, and a processed frame or an
exception is reported. -/
def SendsOneFrame (s t : State) : Prop :=
  ∃ body, t.trace = s.trace ++ sendTrace s.cfg.rs485 (stamp body) ∧ 3 ≤ body.length ∧ body.length ≤ 253 ∧
    body.getD 0 0#8 = s.cfg.slave ∧ ((∃ n, t.outcome = .frameProcessed n) ∨ ∃ code, t.outcome = .exception code)

theorem RequestResult.silent_or_sends {s t : State} (h : RequestResult s t) : Silent s t ∨ SendsOneFrame s t := by
  obtain rfl | ⟨body, _, hmin, hmax, hslave, ⟨_, htrace, _⟩, hout⟩ := h.shape
  · exact .inl ⟨rfl, rfl, rfl, rfl, rfl⟩
  · exact .inr ⟨body, htrace, hmin, hmax, hslave, hout.imp_right fun ⟨code, _, hcode⟩ => ⟨code, hcode⟩⟩

theorem process_silent_or_sends {s t : State} (h : process s = .next t) : Silent s t ∨ SendsOneFrame s t := by
  obtain ⟨r, _, rfl⟩ | ⟨i, _, _, hresult⟩ := process_next h
  · exact .inl ⟨rfl, rfl, rfl, rfl, rfl⟩
  · exact hresult.silent_or_sends

theorem poll_no_frame_silent {s s1 : State} {r : PollResult} (hr : r ≠ .frame) (hp : poll s = (r, s1)) :
    Silent s s1 := by
  obtain ⟨htrace, hen, htxf, hlen, hregs, _⟩ := poll_no_frame hr hp
  exact ⟨htrace, hen, htxf, hlen, hregs⟩

/-- Only a settled frame is answered, and once; neither settling it nor the end of its cycle is seen on the transmit
side. -/
theorem step_silent_or_sends {s t : State} (h : step s = .next t) :
    Silent (takeInputs s) t ∨ SendsOneFrame (takeInputs s) t := by
  obtain ⟨s1, hp, rfl⟩ | ⟨s1, hp, rfl⟩ | ⟨s1, s2, hp, hproc, rfl⟩ := step_cases h
  · exact .inl (poll_no_frame_silent (by simp) hp :)
  · exact .inl (poll_no_frame_silent (by simp) hp :)
  · obtain rfl := poll_frame hp
    exact (process_silent_or_sends hproc :)

end Sys2Proof.Machine

namespace Sys2Proof.Proofs

open Machine

/-- Settles O34: a step that is not silent has sent one frame, whose stamp adds two bytes behind its body. -/
theorem stepSendsAtMostOneStampedFrame : Obligations.StepSendsAtMostOneStampedFrame := by
  unfold Obligations.StepSendsAtMostOneStampedFrame
  intro s t h
  rw [← takeInputs_trace s, ← takeInputs_cfg s]
  obtain ⟨htrace, _⟩ | ⟨body, htrace, hmin, hmax, hslave, _⟩ := step_silent_or_sends h
  · exact .inl htrace
  · refine .inr ⟨stamp body, htrace, ⟨body, rfl⟩, ?_, ?_, (getD_stamp (by omega)).trans hslave⟩ <;>
      rw [length_stamp] <;> omega

/-- Settles O35: a step that sends reports a processed frame or an exception, so one that reports neither is silent, and
of the outside's moves only the host's on the bank are seen. -/
theorem noReplySendsNothing : Obligations.NoReplySendsNothing := by
  unfold Obligations.NoReplySendsNothing
  intro s t h hquiet
  obtain hsilent | ⟨_, _, _, _, _, hout⟩ := step_silent_or_sends h
  · simpa only [Silent, takeInputs_trace, takeInputs_txEn, takeInputs_txf, takeInputs_txLen] using hsilent
  · obtain ⟨n, hout⟩ | ⟨code, hout⟩ := hout <;> simp [hout] at hquiet

/-- Settles O19: every request of this slave sends a frame that fits TXF, and the send is stuck. -/
theorem unreportedTransmissionIsStuck : Obligations.UnreportedTransmissionIsStuck := by
  unfold Obligations.UnreportedTransmissionIsStuck
  exact fun _ _ hreq hslave hrs hrep => exec_stuck hrs hrep hreq hslave

/-- Settles O20: the body fits TXF, and its bytes stand where the layout puts them. -/
theorem readResponseIsBuilt : Obligations.ReadResponseIsBuilt := by
  unfold Obligations.ReadResponseIsBuilt
  intro s slave values _ hmax
  obtain ⟨t, ht, hbuilt⟩ := build_built (body := rhrRspBody slave values) s (by rw [length_rhrRspBody]; omega)
  refine ⟨t, _, ht, hbuilt, ?_, ⟨_, rfl⟩, rfl, rfl, toNat_byteCount_rhrRspBody slave hmax, fun i hi => ?_⟩
  · rw [length_stamp, length_rhrRspBody]; omega
  · exact (be16_eq_iff.mp (be16_getD_stamp_rhrRspBody slave hi)).symm

/-- Settles O21: both bodies are 6 bytes, slave, function and the two fields. -/
theorem writeResponsesAreBuilt : Obligations.WriteResponsesAreBuilt := by
  unfold Obligations.WriteResponsesAreBuilt
  intro s slave a b
  have built (fn : Byte) : ∃ t, build (twoFieldBody slave fn a b []) s = .next t ∧ t.txLen.val = 8 ∧
      Built s t (stamp (twoFieldBody slave fn a b [])) := by
    obtain ⟨t, ht, hbuilt⟩ := build_built (body := twoFieldBody slave fn a b []) s (by simp [length_twoFieldBody])
    obtain ⟨hlen, _⟩ := id hbuilt
    exact ⟨t, ht, hlen, hbuilt⟩
  exact ⟨built fnWrite1, built fnWriteN⟩

/-- Settles O22: the body is 3 bytes, and setting bit 7 changes nothing where it is set. -/
theorem exceptionResponseIsBuilt : Obligations.ExceptionResponseIsBuilt := by
  unfold Obligations.ExceptionResponseIsBuilt
  intro s slave fn code
  obtain ⟨t, ht, hbuilt⟩ := build_built (body := excRspBody slave fn code) s (by simp)
  obtain ⟨hlen, hframe, _⟩ := id hbuilt
  refine ⟨t, ht, hlen, hbuilt, fun hfn => ?_⟩
  rw [hframe]
  exact or_0x80_of_msb hfn

/-- Settles O24: the three cases of SEND. -/
theorem sendSequencesTransmitEnable : Obligations.SendSequencesTransmitEnable := by
  unfold Obligations.SendSequencesTransmitEnable
  intro s
  refine ⟨fun hrs hrep => ?completes, fun hrs hrep => ?stuck, fun hrs => ?plain⟩ <;> rw [send_eq]
  case completes => simp [hrs, hrep, sendTrace]
  case stuck => rw [if_pos ⟨hrs, hrep⟩]
  case plain => simp [hrs, sendTrace]

end Sys2Proof.Proofs
end

section
/-! SUPPORT. The family `45_service.md`: the step that settles a frame (R117, R118), that every step answers but for a
send that is stuck (R124), the range of the Outcome (R26, R120), and the state in which a cycle ends (R122, R123). -/

namespace Sys2Proof.Machine

/-! ## The step on a settled frame (R117, R118, R123) -/

/-- The state in which the cycle of the next poll's frame begins: SETTLED, with the bank held (R27, R77). -/
def State.settledByPoll (s : State) : State := { takeInputs s with fsm := .settled, bankBusy := true }

@[simp] theorem settledByPoll_cfg (s : State) : s.settledByPoll.cfg = s.cfg := takeInputs_cfg s

@[simp] theorem settledByPoll_frame (s : State) : s.settledByPoll.frame = s.frame := takeInputs_frame s

theorem step_settles {s : State} (hf : s.fsm = .accumulating) (hrx : (takeInputs s).rx = [])
    (hsilence : s.cfg.silence ≤ (takeInputs s).now - s.tMark) : step s = cycle s.settledByPoll :=
  service_settles (poll_settles (by rwa [takeInputs_fsm]) hrx (by rwa [takeInputs_cfg, takeInputs_tMark]))

/-! ## What PROCESS reports, and when it does not end (R113, R124) -/

/-- A frame that PARSE rejects has the rejection as its verdict; the drop sends nothing, so whether the transport reports
a transmission is no matter. -/
theorem frameVerdict_of_decodeRequest_error {s : State} {r : DropReason}
    (h : decodeRequest s.cfg.slave s.frame = .error r) : frameVerdict s.cfg.slave s.cfg.n s.frame = .noReply r := by
  let reporting : State := { s with txReports := true }
  obtain ⟨t, ht, hout⟩ := process_outcome (s := reporting) fun _ => rfl
  rw [process_error (show decodeRequest reporting.cfg.slave reporting.frame = .error r from h)] at ht
  obtain rfl := Host.Outcome.next.inj ht
  exact hout.symm

/-- PROCESS answers with the verdict on the frame, or its request is stuck in its send. -/
theorem process_verdict_or_stuck (s : State) :
    (∃ t, process s = .next t ∧ t.outcome = frameVerdict s.cfg.slave s.cfg.n s.frame) ∨
      (process s = .fault .transmitNeverCompletes ∧ s.cfg.rs485 = true ∧ s.txReports = false) := by
  by_cases hs : CanSend s
  · exact .inl (process_outcome hs)
  rw [canSend_iff, not_not] at hs
  obtain ⟨hrs, hrep⟩ := hs
  cases hdec : decodeRequest s.cfg.slave s.frame with
  | error r => exact .inl ⟨_, process_error hdec, (frameVerdict_of_decodeRequest_error hdec).symm⟩
  | ok i =>
    obtain ⟨hreq, hslave⟩ := decodeRequest_isRequest hdec
    exact .inr ⟨(process_ok hdec).trans (exec_stuck hrs hrep hreq hslave), hrs, hrep⟩

theorem process_next_outcome {s t : State} (h : process s = .next t) :
    t.outcome = frameVerdict s.cfg.slave s.cfg.n s.frame := by
  obtain ⟨t', ht', hout⟩ | ⟨hstuck, _⟩ := process_verdict_or_stuck s
  · obtain rfl := Host.Outcome.next.inj (h.symm.trans ht')
    exact hout
  · rw [h] at hstuck; cases hstuck

theorem cycle_answers_or_stuck (s : State) : (∃ t, cycle s = .next t) ∨
    (cycle s = .fault .transmitNeverCompletes ∧ s.cfg.rs485 = true ∧ s.txReports = false) := by
  obtain ⟨t, ht, _⟩ | ⟨hstuck, hstate⟩ := process_verdict_or_stuck s
  · exact .inl ⟨endCycle t, by rw [cycle, ht, andThen_next]⟩
  · exact .inr ⟨by rw [cycle, hstuck, andThen_fault], hstate⟩

theorem service_answers_or_stuck (s : State) : (∃ t, service s = .next t) ∨
    (service s = .fault .transmitNeverCompletes ∧ s.cfg.rs485 = true ∧ s.txReports = false) := by
  match hp : poll s with
  | (.none, s1) => exact .inl ⟨_, service_none hp⟩
  | (.overflow, s1) => exact .inl ⟨_, service_overflow hp⟩
  | (.frame, s1) =>
    obtain rfl := poll_frame hp
    rw [service_settles hp]
    exact cycle_answers_or_stuck { s with fsm := .settled, bankBusy := true }

/-! ## The range of the Outcome (R26, R120, R129) -/

/-- The Outcomes that a step can report while the assembler holds `len` bytes. -/
def ServiceOutcome.InRange (len : Nat) : ServiceOutcome → Prop
  | .noActivity => True
  | .frameProcessed n => n = len ∧ 8 ≤ n
  | .exception code => code ≠ .serverFailure
  | .noReply _ => True

theorem validateVerdict_inRange {len : Nat} (h8 : 8 ≤ len) {v : Option ExcCode} (hv : v ≠ some .serverFailure) :
    (validateVerdict len v).InRange len := by
  cases v with
  | none => exact ⟨rfl, h8⟩
  | some code => exact fun hcode => hv (congrArg some hcode)

/-- Only what passed the check for 8 bytes is judged by VALIDATE. -/
theorem frameVerdict_inRange (slave : Byte) (n : Nat) (f : List Byte) :
    (frameVerdict slave n f).InRange f.length := by
  obtain h4 | h4 := Nat.lt_or_ge f.length 4
  · rw [frameVerdict_short _ _ h4]; trivial
  cases hcrc : crcCheck f with
  | false => rw [frameVerdict_crc h4 hcrc]; trivial
  | true =>
    by_cases hslave : f.getD 0 0#8 = slave
    case neg => rw [frameVerdict_foreign h4 hcrc hslave]; trivial
    rw [frameVerdict_addressed h4 hcrc hslave]
    split_ifs with hfn h8
    · exact ExcCode.noConfusion
    · trivial
    · exact validateVerdict_inRange (not_lt.mp h8) (validate_ne_serverFailure _ _ _ _ _)

theorem step_outcome_inRange {s t : State} (h : step s = .next t) : t.outcome.InRange s.len.val := by
  obtain ⟨s1, _, rfl⟩ | ⟨s1, _, rfl⟩ | ⟨s1, s2, hp, hproc, rfl⟩ := step_cases h
  · trivial
  · trivial
  · obtain rfl := poll_frame hp
    have hlen : s.len.val = s.settledByPoll.frame.length := by rw [settledByPoll_frame, length_frame]
    rw [endCycle_outcome, process_next_outcome hproc, hlen]
    exact frameVerdict_inRange ..

/-! ## The state in which a cycle ends (R78, R122, R123) -/

/-- POLL answers OVERFLOW only by discarding all bytes, held and waiting (R78). -/
theorem poll_overflow {s s1 : State} (h : poll s = (.overflow, s1)) :
    s1 = { s with rx := [], len := 0, fsm := .idle } := by
  unfold poll at h
  obtain ⟨hpoll, _⟩ | ⟨hpoll, _⟩ | ⟨_, base, _, hpoll⟩ := pollAt_cases (elapsed s) s <;> rw [hpoll] at h
  · cases h
  · cases h
  · obtain ⟨_, hdrain⟩ | ⟨_, hdrain⟩ := drain_cases base s <;> rw [hdrain] at h <;> cases h
    rfl

theorem RequestResult.txEn_low {s t : State} (h : RequestResult s t) (hen : s.txEn = false) : t.txEn = false := by
  obtain rfl | ⟨_, _, _, _, _, ⟨_, _, _, _, _, hsent, _⟩, _⟩ := h.shape
  · exact hen
  · rw [hsent, hen, ite_self]

/-- A drop drives no signal, and a send ends with `tx_en` low, if it drives it at all (R113, R130). -/
theorem process_txEn_low {s t : State} (h : process s = .next t) (hen : s.txEn = false) : t.txEn = false := by
  obtain ⟨r, _, rfl⟩ | ⟨i, _, _, hresult⟩ := process_next h
  · exact hen
  · exact hresult.txEn_low hen

end Sys2Proof.Machine

namespace Sys2Proof.Proofs

open Machine

/-- Settles O33: a poll without a frame answers, and so does a cycle, unless its request is stuck in its send. -/
theorem stepAnswersOrWaitsForTransport : Obligations.StepAnswersOrWaitsForTransport := by
  unfold Obligations.StepAnswersOrWaitsForTransport
  intro s
  rw [← takeInputs_cfg s]
  exact service_answers_or_stuck (takeInputs s)

/-- Settles O39: the Outcome is in range, and its encoding on the ports loses nothing, since `len` has 9 bits. -/
theorem outcomeArgumentIsInRange : Obligations.OutcomeArgumentIsInRange := by
  unfold Obligations.OutcomeArgumentIsInRange
  intro s t h
  have hrange := step_outcome_inRange h
  refine ⟨fun hout => ?_, fun n hout => ?_, fun code hout => ?_, fun reason hout => ?_⟩ <;> rw [hout] at hrange ⊢
  · exact ⟨rfl, rfl, rfl⟩
  · obtain ⟨hn, h8⟩ := hrange
    have hmax : n < 257 := hn ▸ s.len.isLt
    exact ⟨hn, h8, by omega, rfl, rfl, Nat.mod_eq_of_lt (by omega)⟩
  · refine ⟨rfl, rfl, ?_⟩
    cases code with
    | serverFailure => exact absurd rfl hrange
    | _ => simp [ServiceOutcome.value, codeNumber]
  · refine ⟨rfl, rfl, ?_⟩
    cases reason <;> simp [ServiceOutcome.value, reasonNumber]

/-- Settles O47: an overflow discards everything, and a cycle ends with `endCycle`; in both the transmit-enable signal is
low again if it was before. -/
theorem cycleEndsAsResetBegins : Obligations.CycleEndsAsResetBegins := by
  unfold Obligations.CycleEndsAsResetBegins
  intro s t h hout
  rw [← takeInputs_bankBusy s, ← takeInputs_txEn s]
  obtain ⟨s1, _, rfl⟩ | ⟨s1, hp, rfl⟩ | ⟨s1, s2, hp, hproc, rfl⟩ := step_cases h
  · exact absurd rfl hout
  · obtain rfl := poll_overflow hp
    exact ⟨rfl, rfl, id, id⟩
  · obtain rfl := poll_frame hp
    exact ⟨rfl, rfl, fun _ => rfl, (process_txEn_low hproc :)⟩

/-- Settles O30: the poll settles the frame, and the step is the cycle on it. -/
theorem stepRunsTheParsedRequest : Obligations.StepRunsTheParsedRequest := by
  unfold Obligations.StepRunsTheParsedRequest
  intro s hf hrx hsilence
  rw [step_settles hf hrx hsilence, ← settledByPoll_cfg s, ← settledByPoll_frame s]
  refine ⟨fun i hdec => ?_, fun _ => cycle_error⟩
  rw [cycle_ok hdec]
  rfl

end Sys2Proof.Proofs
end

section
/-! SUPPORT. The family `60_exceptions.md`: the exception that answers a refused request (R125, R127, R128), and that
server-failure is never raised and never sent (R129). -/

namespace Sys2Proof.Machine

/-! ## A request that VALIDATE refuses (R125) -/

/-- `i` ends in the exception `code` to the function byte `fn`: its frame is sent and no register touched. -/
def TakesException (s : State) (i : Instr) (fn : Byte) (code : ExcCode) : Prop :=
  ∃ t, exec i s = .next t ∧ Answered s t (stamp (excRspBody s.cfg.slave fn code)) (.exception code) ∧ BankUnchanged s t

theorem takesException_of_raiseException {s : State} {i : Instr} {fn : Byte} {code : ExcCode} (hs : CanSend s)
    (hexec : exec i s = raiseException fn code s) : TakesException s i fn code := by
  obtain ⟨t, ht, hans, hregs, _⟩ :=
    respond_answers (body := excRspBody s.cfg.slave fn code) (.exception code) s (by simp) hs
  exact ⟨t, hexec.trans ht, hans, fun a => by rw [hregs]⟩

section
variable {s : State} {code : ExcCode} (hs : CanSend s)
include hs

theorem rhr_takesException {start count : Word} {surplus : List Byte}
    (hv : validate fnRead start count s.cfg.n (requestLen surplus) = some code) :
    TakesException s (.rhr s.cfg.slave start count surplus) fnRead code :=
  takesException_of_raiseException hs (by rw [exec_rhr_eq, addressed_self, hv]; rfl)

theorem wsr_takesException {addr value : Word} {surplus : List Byte}
    (hv : validate fnWrite1 addr value s.cfg.n (requestLen surplus) = some code) :
    TakesException s (.wsr s.cfg.slave addr value surplus) fnWrite1 code :=
  takesException_of_raiseException hs (by rw [exec_wsr_eq, addressed_self, hv]; rfl)

theorem wmr_takesException {start count : Word} {rest : List Byte}
    (hv : validate fnWriteN start count s.cfg.n (requestLen rest) = some code) :
    TakesException s (.wmr s.cfg.slave start count rest) fnWriteN code :=
  takesException_of_raiseException hs (by rw [exec_wmr_eq, addressed_self, hv]; rfl)

end

/-! ## The frame that a transmit trace shows (R113) -/

theorem sendTrace_injective (rs485 : Bool) : Function.Injective (sendTrace rs485) := by
  have hbyte : Function.Injective TxEvent.byte := fun _ _ => TxEvent.byte.inj
  intro x y h
  cases rs485 with
  | false => exact hbyte.list_map h
  | true => exact hbyte.list_map (List.append_cancel_right (List.cons.inj h).2)

theorem sendTrace_ne_nil (rs485 : Bool) {bytes : List Byte} (h : bytes ≠ []) : sendTrace rs485 bytes ≠ [] := by
  cases rs485 with
  | false => simpa [sendTrace] using h
  | true => simp [sendTrace]

theorem AnsweredWith.bytes_eq {s t : State} {body bytes : List Byte} {o : ServiceOutcome} (h : AnsweredWith s t body o)
    (htrace : t.trace = s.trace ++ sendTrace s.cfg.rs485 bytes) : bytes = stamp body := by
  obtain ⟨_, ⟨_, hsent, _⟩, _⟩ := h
  exact sendTrace_injective _ (List.append_cancel_left (htrace.symm.trans hsent))

/-! ## What a frame of five bytes is (R115, R129) -/

/-- If a frame of five bytes was sent, it is an exception response, and not that of server-failure. -/
def SendsNoServerFailure (s t : State) : Prop :=
  ∀ bytes : List Byte, t.trace = s.trace ++ sendTrace s.cfg.rs485 bytes → bytes.length = 5 →
    ∃ fn code, code ≠ .serverFailure ∧ bytes = stamp (excRspBody s.cfg.slave fn code)

theorem sendsNoServerFailure_of_trace_eq {s t : State} (h : t.trace = s.trace) : SendsNoServerFailure s t := by
  intro bytes htrace hlen
  have hnil : sendTrace s.cfg.rs485 bytes = [] := List.self_eq_append_right.mp (h.symm.trans htrace)
  exact absurd hnil (sendTrace_ne_nil _ (List.ne_nil_of_length_pos (by omega)))

/-- The responses of processed frames are longer: a read's has at least 7 bytes, a write's has 8. -/
theorem RequestResult.sendsNoServerFailure {s t : State} (h : RequestResult s t) : SendsNoServerFailure s t := by
  cases h with
  | dropped h => exact sendsNoServerFailure_of_trace_eq (by rw [h, dropFrame_trace])
  | refused fn code hc h _ => exact fun _ htrace _ => ⟨fn, code, hc, h.bytes_eq htrace⟩
  | read values n hmin _ h _ =>
    intro bytes htrace hlen
    rw [h.bytes_eq htrace, length_stamp, length_rhrRspBody] at hlen
    omega
  | wrote fn a b n ws _ h _ =>
    intro bytes htrace hlen
    rw [h.bytes_eq htrace, length_stamp, length_twoFieldBody, List.length_nil] at hlen
    omega

theorem process_sendsNoServerFailure {s t : State} (h : process s = .next t) : SendsNoServerFailure s t := by
  obtain ⟨r, _, rfl⟩ | ⟨_, _, _, hresult⟩ := process_next h
  · exact sendsNoServerFailure_of_trace_eq (dropFrame_trace s r)
  · exact hresult.sendsNoServerFailure

theorem step_sendsNoServerFailure {s t : State} (h : step s = .next t) : SendsNoServerFailure (takeInputs s) t := by
  obtain ⟨s1, hp, rfl⟩ | ⟨s1, hp, rfl⟩ | ⟨s1, s2, hp, hproc, rfl⟩ := step_cases h
  · exact sendsNoServerFailure_of_trace_eq (poll_no_frame_silent (by simp) hp).1
  · exact sendsNoServerFailure_of_trace_eq (poll_no_frame_silent (by simp) hp).1
  · obtain rfl := poll_frame hp
    exact (process_sendsNoServerFailure hproc :)

theorem excByte_eq_0x04_iff {code : ExcCode} : excByte code = 0x04#8 ↔ code = .serverFailure := by
  cases code <;> simp [excByte]

end Sys2Proof.Machine

namespace Sys2Proof.Proofs

open Machine

/-- Settles O17: each clause is the condition of one branch of VALIDATE, and what VALIDATE refuses takes its
exception. -/
theorem refusedRequestTakesItsException : Obligations.RefusedRequestTakesItsException := by
  unfold Obligations.RefusedRequestTakesItsException
  intro s start p45 after hs
  dsimp only
  refine ⟨fun hc => ?readCount, fun h1 hmax hn => ?readRange, fun hn => ?write1Address, fun hc => ?writeNCount,
    fun h1 hmax hn => ?writeNRange, fun h1 hmax hn hlen => ?writeNData⟩
  case readCount => exact rhr_takesException hs (by rw [validate_read, if_pos (by omega)])
  case readRange => exact rhr_takesException hs (by rw [validate_read, if_neg (by omega), if_pos (by omega)])
  case write1Address => exact wsr_takesException hs (by rw [validate_write1, if_neg (by omega)])
  case writeNCount => exact wmr_takesException hs (by rw [validate_writeN, if_pos (by omega)])
  case writeNRange => exact wmr_takesException hs (by rw [validate_writeN, if_neg (by omega), if_pos (by omega)])
  case writeNData =>
    have hshort : requestLen after < 9 + 2 * p45.toNat := hlen
    exact wmr_takesException hs (by
      rw [validate_writeN, if_neg (by omega), if_neg (by omega), if_pos hshort])

/-- Settles O38: the Outcome is in range, and a frame of five bytes is the exception response of a code that was
raised. -/
theorem serverFailureIsNeverRaised : Obligations.ServerFailureIsNeverRaised := by
  unfold Obligations.ServerFailureIsNeverRaised
  intro s t h
  refine ⟨fun hout => ?_, fun bytes htrace hlen _ => ?_⟩
  · have hrange := step_outcome_inRange h
    rw [hout] at hrange
    exact hrange rfl
  · rw [← takeInputs_trace s, ← takeInputs_cfg s] at htrace
    obtain ⟨fn, code, hcode, rfl⟩ := step_sendsNoServerFailure h bytes htrace hlen
    exact excByte_eq_0x04_iff.not.mpr hcode

end Sys2Proof.Proofs
end

section
/-! SUPPORT. The family `70_reset_and_hazards.md`: the clock-level view refines the service step (R159), reset abandons a
cycle (R142, R143, R146), and the liveness of a cycle at both levels (R159 c, R160). -/

namespace Sys2Proof.Machine

/-! ## The Outcome of the step before is never read (R26) -/

theorem build_report (body : List Byte) (o : ServiceOutcome) (s : State) :
    build body (report o s) = andThen (build body s) fun t => .next (report o t) := by
  unfold build
  split <;> rfl

theorem send_report (o : ServiceOutcome) (s : State) :
    send (report o s) = andThen (send s) fun t => .next (report o t) := by
  rw [send_eq, send_eq]
  by_cases h : s.cfg.rs485 = true ∧ s.txReports = false
  · rw [if_pos h]
    exact if_pos h
  · rw [if_neg h]
    exact if_neg h

theorem respond_report (body : List Byte) (o o' : ServiceOutcome) (s : State) :
    respond body o (report o' s) = respond body o s := by
  rw [respond, build_report, respond]
  cases build body s with
  | next t =>
    simp only [andThen_next, send_report]
    cases send t <;> rfl
  | fault r => rfl
  | refused r => rfl

theorem afterValidate_report (fn : Byte) (v : Option ExcCode) (body : List Byte) (len : Nat) (o : ServiceOutcome)
    (s s' : State) : afterValidate fn v body len (report o s) (report o s') = afterValidate fn v body len s s' := by
  cases v with
  | some code => exact respond_report (excRspBody s.cfg.slave fn code) (.exception code) o s
  | none => exact respond_report body (.frameProcessed len) o s'

theorem exec_request_report {i : Instr} (hi : i.isRequest = true) (o : ServiceOutcome) (s : State) :
    exec i (report o s) = exec i s := by
  cases i with
  | rhr sl start count surplus => exact congrArg (addressed sl s) (afterValidate_report _ _ _ _ o s s)
  | wsr sl addr value surplus =>
    exact congrArg (addressed sl s) (afterValidate_report _ _ _ _ o s (s.writeRegs addr.toNat [value]))
  | wmr sl start count rest =>
    exact congrArg (addressed sl s)
      (afterValidate_report _ _ _ _ o s (s.writeRegs start.toNat (dataWords count.toNat rest)))
  | illfn sl fn payload => exact congrArg (addressed sl s) (respond_report _ _ o s)
  | rhrRsp | wsrRsp | wmrRsp | excRsp => cases hi

theorem cycle_report (o : ServiceOutcome) (s : State) : cycle (report o s) = cycle s := by
  cases hdec : decodeRequest s.cfg.slave s.frame with
  | error r =>
    rw [cycle_error hdec, cycle_error (s := report o s) hdec]
    rfl
  | ok i =>
    rw [cycle_ok hdec, cycle_ok (s := report o s) hdec, exec_request_report (decodeRequest_isRequest hdec).1]

/-! ## A clock cycle of SETTLED keeps the result of the cycle (R159 c) -/

/-- After the check of a request its cycle has yet to do what the meaning of the request does. -/
theorem completion_plan {i : Instr} {s : State} (hi : i.isRequest = true) (hslave : i.slave = s.cfg.slave) :
    completion { s := s, phase := plan i s } = andThen (exec i s) fun t => .next (endCycle t) := by
  cases i with
  | rhr sl start count surplus =>
    obtain rfl : sl = s.cfg.slave := hslave
    rw [exec_rhr_eq, addressed_self, plan]
    cases validate fnRead start count s.cfg.n (requestLen surplus) <;> rfl
  | wsr sl addr value surplus =>
    obtain rfl : sl = s.cfg.slave := hslave
    rw [exec_wsr_eq, addressed_self, plan]
    cases validate fnWrite1 addr value s.cfg.n (requestLen surplus) <;> rfl
  | wmr sl start count rest =>
    obtain rfl : sl = s.cfg.slave := hslave
    rw [exec_wmr_eq, addressed_self, plan]
    cases validate fnWriteN start count s.cfg.n (requestLen rest) <;> rfl
  | illfn sl fn payload =>
    obtain rfl : sl = s.cfg.slave := hslave
    exact congrArg (andThen · fun t => .next (endCycle t)) (addressed_self s _).symm
  | rhrRsp | wsrRsp | wmrRsp | excRsp => cases hi

theorem readRegs_succ (s : State) (next left : Nat) :
    s.readRegs next (left + 1) = Cells.read s.regs next :: s.readRegs (next + 1) left := by
  simp [State.readRegs, Cells.readList, List.range_succ_eq_map, Function.comp_def, Nat.add_assoc, Nat.add_comm 1]

theorem txPushAll_nil (s : State) : txPushAll [] s = s := by simp [txPushAll]

theorem txPushAll_txPushAll (bs bs' : List Byte) (s : State) :
    txPushAll bs' (txPushAll bs s) = txPushAll (bs ++ bs') s := by simp [txPushAll]

/-- The send and the end of the cycle are the rest of the send from byte 0 on, `tx_en` being high if `RS485` (R113). -/
theorem andThen_send (o : ServiceOutcome) (s : State) :
    (andThen (send s) fun s1 => .next (endCycle (report o s1))) =
      pushRest 0 o (if s.cfg.rs485 then txEnable true s else s) := by
  cases hrs : s.cfg.rs485 with
  | false => simp [send, pushRest, hrs]
  | true =>
    simp only [send, pushRest, hrs, if_true, txEnable_cfg, txFrame_txEnable, List.drop_zero]
    cases txWaitComplete (txPushAll s.txFrame (txEnable true s)) <;> rfl

/-- A byte handed over and the rest after it are the rest with it. -/
theorem pushRest_push {k : Nat} {s : State} (o : ServiceOutcome) (hk : k < s.txLen.val) :
    pushRest (k + 1) o (txPushAll [Cells.read (w := 8) s.txf k] s) = pushRest k o s := by
  have hdrop : s.txFrame.drop k = Cells.read (w := 8) s.txf k :: s.txFrame.drop (k + 1) := by
    rw [List.drop_eq_getElem_cons (by rwa [length_txFrame])]
    simp [State.txFrame, Cells.getElem_readList]
  rw [pushRest, pushRest, txFrame_txPushAll, hdrop, txPushAll_txPushAll]
  rfl

/-- After the last byte the wait is left. -/
theorem pushRest_all {k : Nat} {s : State} (o : ServiceOutcome) (hk : s.txLen.val ≤ k) :
    pushRest k o s = completion { s := s, phase := .wait o } := by
  simp only [pushRest, completion, List.drop_of_length_le (length_txFrame s ▸ hk), txPushAll_nil]

/-- A clock cycle that makes progress does part of the work left and leaves the rest. -/
theorem completion_advance {i : ClockIn} {c : ClockState} (hs : CanSend c.s) :
    completion (advance i c) = completion c := by
  obtain ⟨s, phase⟩ := c
  cases phase with
  | poll => rfl
  | check =>
    simp only [advance]
    cases hdec : decodeRequest s.cfg.slave s.frame with
    | error r => exact (cycle_error hdec).symm
    | ok req =>
      obtain ⟨hreq, hslave⟩ := decodeRequest_isRequest hdec
      exact (completion_plan hreq hslave).trans (cycle_ok hdec).symm
  | read next left got o =>
    cases left with
    | zero => simp [advance, completion, State.readRegs, Cells.readList]
    | succ left => simp [advance, completion, readRegs_succ]
  | write next left body o => cases left <;> rfl
  | build body o =>
    cases hb : build body s with
    | next s1 =>
      simp only [advance, completion, respond, hb, andThen_next]
      cases send s1 <;> rfl
    | fault r => simp only [advance, hb]
    | refused r => simp only [advance, hb]
  | enable o => exact (andThen_send o s).symm
  | push k o =>
    by_cases hk : k < s.txLen.val
    · simp only [advance, hk, if_true]
      cases i.txReady
      · rfl
      · cases i.hold <;> exact pushRest_push o hk
    · simp only [advance, hk, if_false]
      exact (pushRest_all o (not_lt.mp hk)).symm
  | gap k o => rfl
  | wait o =>
    cases hrs : s.cfg.rs485 with
    | false => simp [advance, completion, hrs]
    | true =>
      have hrep : s.txReports = true := hs hrs
      cases hdone : i.txDone
      · simp [advance, hrs, hdone]
      · simp [advance, completion, hrs, hdone, txWaitComplete, hrep]
  | finish o => rfl

/-- Without reset, a clock cycle of SETTLED is held or makes progress. -/
theorem tick_settled {i : ClockIn} {c : ClockState} (hrst : i.rst = false) (hphase : c.phase ≠ .poll) :
    tick i c = if i.hold && (txByte c).isNone then c else advance i c := by
  simp only [tick, hrst, hphase, Bool.false_eq_true, if_false]

/-! ## A polling clock cycle begins a service step (R159 a, b) -/

/-- The state a polling clock cycle polls: the time sampled, the byte on offer waiting, the host's writes in the bank. -/
def State.sampled (s : State) (i : ClockIn) : State :=
  { s with now := i.now.toNat, rx := i.rx.toList, regs := hostWrites s.cfg.n s.regs i.hostWrites }

/-- The ticks since `t_mark` as the hardware counts them (R80). -/
def State.elapsedAt (s : State) (i : ClockIn) : Nat := elapsedTW i.now.toNat s.tMark

/-- What a polling clock cycle reports: a frame is not yet answered. -/
def PollResult.reported : PollResult → ServiceOutcome
  | .none => .noActivity
  | .overflow => .noReply .overflow
  | .frame => .noActivity

theorem clockPoll_of_pollAt {i : ClockIn} {s s1 : State} {r : PollResult}
    (h : pollAt (s.elapsedAt i) (s.sampled i) = (r, s1)) :
    clockPoll i s = { s := report r.reported s1, phase := if r = .frame then .check else .poll } := by
  simp only [State.elapsedAt, State.sampled] at h
  cases r <;> simp only [clockPoll, h] <;> rfl

theorem tick_poll {i : ClockIn} {c : ClockState} (hrst : i.rst = false) (hphase : c.phase = .poll) :
    tick i c = clockPoll i c.s := by
  simp [tick, hrst, hphase]

/-- While the time has not wrapped since `t_mark`, the hardware's poll is POLL (R80). -/
theorem pollAt_sample {i : ClockIn} {s : State} (h : s.tMark ≤ i.now.toNat) :
    pollAt (s.elapsedAt i) (s.sampled i) = poll (s.sampled i) := by
  have hnow : i.now.toNat < 2 ^ 32 := i.now.isLt
  have hmod := elapsedTW_mod h (by omega)
  rw [Nat.mod_eq_of_lt hnow, Nat.mod_eq_of_lt (h.trans_lt hnow)] at hmod
  exact congrArg (pollAt · (s.sampled i)) hmod

theorem completion_clockPoll {i : ClockIn} {s : State} (h : s.tMark ≤ i.now.toNat) :
    completion (clockPoll i s) = service (s.sampled i) := by
  have hpoll := pollAt_sample h
  match hp : poll (s.sampled i) with
  | (.none, s1) =>
    rw [clockPoll_of_pollAt (hpoll.trans hp)]
    exact (service_none hp).symm
  | (.overflow, s1) =>
    rw [clockPoll_of_pollAt (hpoll.trans hp)]
    exact (service_overflow hp).symm
  | (.frame, s1) =>
    rw [clockPoll_of_pollAt (hpoll.trans hp), service, hp]
    exact cycle_report .noActivity s1

/-! ## Overflow with at most one byte a clock cycle (R159 d) -/

@[simp] theorem rx_sampled (s : State) (i : ClockIn) : (s.sampled i).rx = i.rx.toList := rfl

@[simp] theorem held_sampled (s : State) (i : ClockIn) : (s.sampled i).held = s.held := rfl

/-- While bytes wait, POLL does not look at the time (R74, R75, R78). -/
theorem pollAt_of_waiting {s : State} (e : Nat) (hf : s.fsm ≠ .settled) (hrx : s.rx ≠ []) : pollAt e s = poll s := by
  cases h : s.fsm with
  | idle => simp [poll, pollAt, h, hrx]
  | accumulating => simp [poll, pollAt, h, hrx]
  | settled => exact absurd h hf

theorem pollAt_quiet_ne_overflow {s : State} (e : Nat) (hrx : s.rx = []) : (pollAt e s).1 ≠ .overflow := by
  obtain ⟨h, _⟩ | ⟨h, _⟩ | ⟨hne, _⟩ := pollAt_cases e s
  · simp [h]
  · simp [h]
  · exact absurd hrx hne

theorem length_held_le (s : State) : s.held.length ≤ 256 := by
  unfold State.held
  split
  · exact Nat.zero_le 256
  · rw [length_frame]
    omega

theorem length_held_eq_256_iff {s : State} (hf : s.fsm ≠ .settled) :
    s.held.length = 256 ↔ s.fsm = .accumulating ∧ s.len.val = 256 := by
  cases h : s.fsm with
  | idle => simp [held_of_idle h]
  | accumulating => simp [held_of_accumulating h]
  | settled => exact absurd h hf

theorem reported_eq_overflow_iff {r : PollResult} : r.reported = .noReply .overflow ↔ r = .overflow := by
  cases r <;> simp [PollResult.reported]

theorem clockPoll_quiet_outcome {i : ClockIn} (s : State) (hrx : i.rx = none) :
    (clockPoll i s).s.outcome ≠ .noReply .overflow := by
  rw [clockPoll_of_pollAt rfl, report_outcome, ne_eq, reported_eq_overflow_iff]
  exact pollAt_quiet_ne_overflow _ (by rw [rx_sampled, hrx, Option.toList_none])

section
variable {i : ClockIn} {s : State} {b : Byte} (hf : s.fsm ≠ .settled) (hrx : i.rx = some b)
include hf hrx

theorem clockPoll_byte {r : PollResult} {s1 : State} (h : poll (s.sampled i) = (r, s1)) :
    clockPoll i s = { s := report r.reported s1, phase := if r = .frame then .check else .poll } := by
  have hwaiting : (s.sampled i).rx ≠ [] := by simp [hrx]
  exact clockPoll_of_pollAt ((pollAt_of_waiting (s := s.sampled i) _ hf hwaiting).trans h)

theorem clockPoll_absorbs (hroom : s.held.length ≠ 256) : (clockPoll i s).s.outcome = .noActivity := by
  have hmax := length_held_le s
  have hfit : (s.sampled i).held.length + (s.sampled i).rx.length < 257 := by simp [hrx]; omega
  rw [clockPoll_byte hf hrx (poll_absorbs (s := s.sampled i) hf (by simp [hrx]) hfit)]
  rfl

/-- A byte more than the buffer holds is taken and discarded with all of them. -/
theorem clockPoll_overflows (hfull : s.held.length = 256) : clockPoll i s =
    { s := report (.noReply .overflow) { s.sampled i with rx := [], len := 0, fsm := .idle }, phase := .poll } := by
  have hover : 256 < (s.sampled i).held.length + (s.sampled i).rx.length := by simp [hrx, hfull]
  rw [clockPoll_byte hf hrx (poll_overflows (s := s.sampled i) hf (by simp [hrx]) hover)]
  rfl

end

/-! ## Reset (R142, R143, R146) -/

theorem tick_reset {i : ClockIn} (c : ClockState) (hrst : i.rst = true) : tick i c =
    { s := engineReset { c.s with regs := hostWrites c.s.cfg.n c.s.regs i.hostWrites }, phase := .poll } := by
  simp only [tick, hrst, if_true]

/-! ## A cycle of SETTLED ends (R159 c) -/

/-- Clock cycles with the inputs `i` lead from `c` back to polling. -/
def EndsFrom (i : ClockIn) (c : ClockState) : Prop := ∃ k, ((tick i)^[k] c).phase = .poll

theorem endsFrom_of_poll (i : ClockIn) {c : ClockState} (h : c.phase = .poll) : EndsFrom i c := ⟨0, h⟩

theorem endsFrom_of_tick {i : ClockIn} {c : ClockState} (h : EndsFrom i (tick i c)) : EndsFrom i c := by
  obtain ⟨k, hk⟩ := h
  exact ⟨k + 1, hk⟩

section
variable {i : ClockIn} (hrst : i.rst = false) (hhold : i.hold = false)
include hrst hhold

theorem endsFrom_of_advance {c : ClockState} (h : EndsFrom i (advance i c)) : EndsFrom i c := by
  by_cases hphase : c.phase = .poll
  · exact endsFrom_of_poll i hphase
  · refine endsFrom_of_tick ?_
    rwa [tick_settled hrst hphase, hhold, Bool.false_and, if_neg Bool.false_ne_true]

theorem endsFrom_finish (s : State) (o : ServiceOutcome) : EndsFrom i { s := s, phase := .finish o } :=
  endsFrom_of_advance hrst hhold (endsFrom_of_poll i rfl)

variable (hdone : i.txDone = true)
include hdone

theorem endsFrom_wait (s : State) (o : ServiceOutcome) : EndsFrom i { s := s, phase := .wait o } := by
  refine endsFrom_of_advance hrst hhold ?_
  simp only [advance, hdone, if_true]
  split <;> exact endsFrom_finish hrst hhold _ o

variable (hready : i.txReady = true)
include hready

/-- Each clock cycle hands over one of the bytes left. -/
theorem endsFrom_push (s : State) (k : Nat) (o : ServiceOutcome) : EndsFrom i { s := s, phase := .push k o } := by
  refine endsFrom_of_advance hrst hhold ?_
  by_cases hk : k < s.txLen.val
  · simp only [advance, hk, hready, hhold, if_true, Bool.false_eq_true, if_false]
    exact endsFrom_push (txPushAll [Cells.read (w := 8) s.txf k] s) (k + 1) o
  · simp only [advance, hk, if_false]
    exact endsFrom_wait hrst hhold hdone s o
termination_by s.txLen.val - k
decreasing_by rw [txPushAll_txLen]; omega

theorem endsFrom_gap (s : State) (k : Nat) (o : ServiceOutcome) : EndsFrom i { s := s, phase := .gap k o } :=
  endsFrom_of_advance hrst hhold (endsFrom_push hrst hhold hdone hready s k o)

theorem endsFrom_enable (s : State) (o : ServiceOutcome) : EndsFrom i { s := s, phase := .enable o } :=
  endsFrom_of_advance hrst hhold (endsFrom_push hrst hhold hdone hready _ 0 o)

theorem endsFrom_build (s : State) {body : List Byte} (o : ServiceOutcome) (hfit : body.length ≤ 254) :
    EndsFrom i { s := s, phase := .build body o } := by
  refine endsFrom_of_advance hrst hhold ?_
  simp only [advance, build_fits s (show body.length + 2 < 257 by omega)]
  exact endsFrom_enable hrst hhold hdone hready _ o

/-- Each clock cycle reads one of the registers left, of at most 125 (R94). -/
theorem endsFrom_read (s : State) (next left : Nat) (got : List Word) (o : ServiceOutcome)
    (hmax : got.length + left ≤ 125) : EndsFrom i { s := s, phase := .read next left got o } := by
  refine endsFrom_of_advance hrst hhold ?_
  cases left with
  | zero => exact endsFrom_build hrst hhold hdone hready s o (by rw [length_rhrRspBody]; omega)
  | succ left =>
    exact endsFrom_read s (next + 1) left _ o (by rw [List.length_append, List.length_singleton]; omega)

/-- Each clock cycle writes one of the registers left. -/
theorem endsFrom_write (s : State) (next : Nat) (left : List Word) {body : List Byte} (o : ServiceOutcome)
    (hfit : body.length ≤ 254) : EndsFrom i { s := s, phase := .write next left body o } := by
  refine endsFrom_of_advance hrst hhold ?_
  cases left with
  | nil => exact endsFrom_build hrst hhold hdone hready s o hfit
  | cons v left => exact endsFrom_write (s.writeRegs next [v]) (next + 1) left o hfit

/-- The responses of this slave fit TXF: an exception has 5 bytes, a write's answer 8, a read's at most 255 (R115). -/
theorem endsFrom_plan (s : State) (req : Instr) : EndsFrom i { s := s, phase := plan req s } := by
  have refused (fn : Byte) (code : ExcCode) :
      EndsFrom i { s := s, phase := .build (excRspBody s.cfg.slave fn code) (.exception code) } :=
    endsFrom_build hrst hhold hdone hready s _ (by simp)
  cases req with
  | rhr sl start count surplus =>
    simp only [plan]
    cases hv : validate fnRead start count s.cfg.n (requestLen surplus) with
    | some code => exact refused fnRead code
    | none =>
      obtain ⟨_, hmax, _⟩ := validate_read_none.mp hv
      exact endsFrom_read hrst hhold hdone hready s _ _ _ _ (by simpa using hmax)
  | wsr sl addr value surplus =>
    simp only [plan]
    cases validate fnWrite1 addr value s.cfg.n (requestLen surplus) with
    | some code => exact refused fnWrite1 code
    | none => exact endsFrom_write hrst hhold hdone hready s _ _ _ (by simp)
  | wmr sl start count rest =>
    simp only [plan]
    cases validate fnWriteN start count s.cfg.n (requestLen rest) with
    | some code => exact refused fnWriteN code
    | none => exact endsFrom_write hrst hhold hdone hready s _ _ _ (by simp)
  | illfn sl fn payload => exact refused fn .illegalFunction
  | rhrRsp | wsrRsp | wmrRsp | excRsp => exact endsFrom_finish hrst hhold s _

theorem endsFrom_check (s : State) : EndsFrom i { s := s, phase := .check } := by
  refine endsFrom_of_advance hrst hhold ?_
  simp only [advance]
  cases decodeRequest s.cfg.slave s.frame with
  | error r => exact endsFrom_finish hrst hhold s _
  | ok req => exact endsFrom_plan hrst hhold hdone hready s req

end

/-! ## A request is answered within two steps (R160) -/

theorem length_encode_le_of_request {i : Instr} (hreq : i.isRequest = true) (hwf : i.wellFormed = true) :
    (encode i).length ≤ 256 := by
  cases i with
  | rhr => exact (Laws.EncodedLength.rhr _ _ _ _ hwf).2
  | wsr => exact (Laws.EncodedLength.wsr _ _ _ _ hwf).2
  | wmr => exact (Laws.EncodedLength.wmr _ _ _ _ hwf).2
  | illfn => exact (Laws.EncodedLength.illfn _ _ _ hwf).2
  | rhrRsp | wsrRsp | wmrRsp | excRsp => cases hreq

theorem validateVerdict_cases (len : Nat) (v : Option ExcCode) :
    validateVerdict len v = .frameProcessed len ∨ ∃ code, validateVerdict len v = .exception code := by
  cases v with
  | none => exact .inl rfl
  | some code => exact .inr ⟨code, rfl⟩

theorem length_stamp_twoFieldBody (slave fn : Byte) (a b : Word) (after : List Byte) :
    (stamp (twoFieldBody slave fn a b after)).length = requestLen after := by
  rw [length_stamp, length_twoFieldBody, requestLen]
  omega

/-- A request of this slave reports its whole length, or an exception. -/
theorem exec_request_outcome {i : Instr} {s : State} (hreq : i.isRequest = true) (hslave : i.slave = s.cfg.slave)
    (hs : CanSend s) : ∃ t, exec i s = .next t ∧
      (t.outcome = .frameProcessed (encode i).length ∨ ∃ code, t.outcome = .exception code) := by
  cases i with
  | rhr sl start count surplus =>
    obtain rfl : sl = s.cfg.slave := hslave
    obtain ⟨t, ht, hout⟩ := exec_rhr_outcome hs start count surplus
    rw [encode, encodeBody, length_stamp_twoFieldBody]
    exact ⟨t, ht, hout ▸ validateVerdict_cases _ _⟩
  | wsr sl addr value surplus =>
    obtain rfl : sl = s.cfg.slave := hslave
    obtain ⟨t, ht, hout⟩ := exec_wsr_outcome hs addr value surplus
    rw [encode, encodeBody, length_stamp_twoFieldBody]
    exact ⟨t, ht, hout ▸ validateVerdict_cases _ _⟩
  | wmr sl start count rest =>
    obtain rfl : sl = s.cfg.slave := hslave
    obtain ⟨t, ht, hout⟩ := exec_wmr_outcome hs start count rest
    rw [encode, encodeBody, length_stamp_twoFieldBody]
    exact ⟨t, ht, hout ▸ validateVerdict_cases _ _⟩
  | illfn sl fn payload =>
    obtain rfl : sl = s.cfg.slave := hslave
    obtain ⟨t, ht, hout⟩ := exec_illfn_outcome hs fn payload
    exact ⟨t, ht, .inr ⟨_, hout⟩⟩
  | rhrRsp | wsrRsp | wmrRsp | excRsp => cases hreq

/-- `t` is `s` after one stamped frame of at least 5 bytes was sent in answer to `i`, whose whole length or an exception
is reported. -/
def AnsweredOnce (i : Instr) (s t : State) : Prop :=
  ∃ bytes, t.trace = s.trace ++ sendTrace s.cfg.rs485 bytes ∧ Stamped bytes ∧ 5 ≤ bytes.length ∧
    (t.outcome = .frameProcessed (encode i).length ∨ ∃ code, t.outcome = .exception code)

theorem cycle_answersOnce {i : Instr} {s : State} (hdec : decodeRequest s.cfg.slave s.frame = .ok i)
    (hs : CanSend s) : ∃ t, cycle s = .next t ∧ AnsweredOnce i s t := by
  obtain ⟨hreq, hslave⟩ := decodeRequest_isRequest hdec
  obtain ⟨t, ht, hout⟩ := exec_request_outcome hreq hslave hs
  refine ⟨endCycle t, by rw [cycle_ok hdec, ht, andThen_next], ?_⟩
  obtain rfl | ⟨body, _, hmin, _, _, ⟨_, htrace, _⟩, _⟩ := (exec_request_next hreq ht).shape
  · simp at hout
  · exact ⟨stamp body, htrace, ⟨body, rfl⟩, by rw [length_stamp]; omega, hout⟩

/-- From IDLE a poll takes all bytes that arrive as the candidate frame and starts the timer (R74). -/
theorem step_takes_frame {s : State} {p : PollInput} {polls : List PollInput} (hf : s.fsm = .idle) (hrx : s.rx = [])
    (hin : s.inputs = p :: polls) (hp : p.arrivals ≠ []) (hfit : p.arrivals.length ≤ 256) :
    ∃ t, step s = .next t ∧ Assembling p.arrivals polls s.trace t ∧ t.cfg = s.cfg ∧ t.tMark = t.now := by
  have hu : (takeInputs s).rx = p.arrivals := by rw [takeInputs_cons hin]; simp [hrx]
  have hheld : (takeInputs s).held = [] := by rw [held_takeInputs, held_of_idle hf]
  have hpolls : (takeInputs s).inputs = polls := by rw [takeInputs_cons hin]
  refine ⟨_, step_absorbs (by simp [hf]) (by rwa [hu]) (by rw [hu, hheld, List.length_nil]; omega),
    ⟨rfl, ?_, rfl, hpolls, takeInputs_trace s, rfl⟩, takeInputs_cfg s, rfl⟩
  exact (frame_absorb _).trans (by rw [hheld, hu, List.nil_append])

/-- The silence after a request of this slave lets it be answered (R77, R118). -/
theorem step_answersOnce {s : State} {i : Instr} {q : PollInput} {polls : List PollInput} {trace : List TxEvent}
    (hs : Assembling (encode i) (q :: polls) trace s) (hmark : s.tMark = s.now)
    (hdec : decodeRequest s.cfg.slave (encode i) = .ok i) (hq : q.arrivals = []) (hsilence : s.cfg.silence ≤ q.ticks)
    (hrep : q.txReports = true) : ∃ t, step s = .next t ∧ t.fsm = .idle ∧ t.len.val = 0 ∧ AnsweredOnce i s t := by
  obtain ⟨hacc, hframe, hrx, hin, _, _⟩ := hs
  have hstep : step s = cycle s.settledByPoll :=
    step_settles hacc (by simp [takeInputs_cons hin, hrx, hq]) (by
      have hnow : (takeInputs s).now = s.now + q.ticks := by rw [takeInputs_cons hin]
      omega)
  have hsend : CanSend s.settledByPoll := fun _ => by simp [State.settledByPoll, takeInputs_cons hin, hrep]
  obtain ⟨t, ht, hans⟩ := cycle_answersOnce (by rwa [settledByPoll_cfg, settledByPoll_frame, hframe]) hsend
  obtain ⟨hidle, hlen⟩ := cycle_next_idle ht
  refine ⟨t, hstep.trans ht, hidle, hlen, ?_⟩
  simpa [AnsweredOnce, State.settledByPoll] using hans

end Sys2Proof.Machine

namespace Sys2Proof.Proofs

open Machine

/-- Settles O51: a polling clock cycle is POLL on what it samples, a held clock cycle changes nothing, and one that makes
progress leaves the rest of the same work. -/
theorem clockCyclesRefineServiceStep : Obligations.ClockCyclesRefineServiceStep := by
  unfold Obligations.ClockCyclesRefineServiceStep
  refine fun i c hrst hs => ⟨fun hphase _ hmark => ?_, fun hphase => ?_⟩
  · rw [tick_poll hrst hphase]
    exact completion_clockPoll hmark
  · rw [tick_settled hrst hphase]
    split
    · rfl
    · exact completion_advance hs

/-- Settles O41: the first step takes the frame, and the second settles it and answers the request it parses to. -/
theorem wellFormedRequestIsAnsweredOnce : Obligations.WellFormedRequestIsAnsweredOnce := by
  unfold Obligations.WellFormedRequestIsAnsweredOnce
  intro s i p q rest hreq hwf hslave hf hrx hin hp hq hsilence hrep
  have hdec := decodeRequest_encode_of_wellFormed hreq hwf
  obtain ⟨h4, _⟩ := decodeRequest_ok hdec
  obtain ⟨t, hstep, hasm, hcfg, hmark⟩ := step_takes_frame hf hrx hin
    (hp ▸ List.ne_nil_of_length_pos (by omega)) (hp ▸ length_encode_le_of_request hreq hwf)
  obtain ⟨_, _, _, _, htrace, _⟩ := id hasm
  obtain ⟨u, hstep', hidle, hlen, bytes, hans⟩ := step_answersOnce (hp ▸ hasm) hmark
    (by rwa [hcfg, ← hslave]) hq (by rwa [hcfg]) hrep
  rw [htrace, hcfg] at hans
  exact ⟨u, bytes, by rw [run_succ _ hstep, run_succ _ hstep']; rfl, hidle, hlen, hans⟩

/-- Settles O50: a byte overflows exactly a full buffer, and without one nothing overflows. -/
theorem clockOverflowAtFullBuffer : Obligations.ClockOverflowAtFullBuffer := by
  unfold Obligations.ClockOverflowAtFullBuffer
  intro i c hrst hphase hf
  rw [tick_poll hrst hphase, ← length_held_eq_256_iff hf]
  cases hrx : i.rx with
  | none => simp [clockPoll_quiet_outcome c.s hrx]
  | some b =>
    by_cases hfull : c.s.held.length = 256
    · simp [clockPoll_overflows hf hrx hfull, hfull]
    · simp [clockPoll_absorbs hf hrx hfull, hfull]

/-- Settles O52: each phase leads to a later one, or does part of the finitely many accesses or bytes it has left. -/
theorem clockCycleEnds : Obligations.ClockCycleEnds := by
  unfold Obligations.ClockCycleEnds
  intro i ⟨s, phase⟩ hrst hhold hready hdone hbuild hread hwrite
  show EndsFrom i _
  cases phase with
  | poll => exact endsFrom_of_poll i rfl
  | check => exact endsFrom_check hrst hhold hdone hready s
  | read next left got o => exact endsFrom_read hrst hhold hdone hready s next left got o (hread _ _ _ _ rfl)
  | write next left body o => exact endsFrom_write hrst hhold hdone hready s next left o (hwrite _ _ _ _ rfl)
  | build body o => exact endsFrom_build hrst hhold hdone hready s o (hbuild _ _ rfl)
  | enable o => exact endsFrom_enable hrst hhold hdone hready s o
  | push k o => exact endsFrom_push hrst hhold hdone hready s k o
  | gap k o => exact endsFrom_gap hrst hhold hdone hready s k o
  | wait o => exact endsFrom_wait hrst hhold hdone s o
  | finish o => exact endsFrom_finish hrst hhold s o

/-- Settles O49: the clock edge is `engineReset` after the host's writes, whatever the phase, and `rst` holds the ports
down. -/
theorem clockResetAbandonsTheCycle : Obligations.ClockResetAbandonsTheCycle := by
  unfold Obligations.ClockResetAbandonsTheCycle
  intro i c hrst t
  have ht : t = _ := congrArg ClockState.s (tick_reset c hrst)
  rw [tick_reset c hrst, ht]
  refine ⟨rfl, rfl, rfl, rfl, rfl, rfl, rfl, rfl, rfl, rfl, ?_⟩
  simp [ports, hrst]

end Sys2Proof.Proofs
end
